-- ==== Sys2Proof/Word.lean ====
section
/-!
DEFINITION. The data word of the block (00_scope.md R11, R12) and the name of a lane's two state words.
The operators of R12 are those of `BitVec 64`: `+` and `*` wrap modulo 2^64, `^^^` and `|||` are bitwise,
`>>>` is the logical right shift and `<<<` the left shift truncated to 64 bits; none has a flag.
-/
namespace Sys2Proof

/-- A word: 64 bits, bit 0 least significant, always unsigned (R11). -/
abbrev Word := BitVec 64

/-- The two state words of a lane (R22); the command field `sel` selects one of them (R55). -/
inductive StateWord where
  | s0
  | s1
  deriving DecidableEq, Repr

/-- The field `sel = cmd[2]` of a state word: 0 selects `S0`, 1 selects `S1` (R55). -/
def StateWord.sel : StateWord → Nat
  | .s0 => 0
  | .s1 => 1

end Sys2Proof
end

