-- ==== Sys2Proof/Machine/Constants.lean ====
section
/-!
DEFINITION. The constants the document fixes (00_scope.md R8), each in one place (93_implementation_defined.md U11, U13).
-/
namespace Sys2Proof.Machine

/-- `G`, the additive constant GOLDEN_RATIO_CONST. -/
def golden : Word := 0x9E3779B97F4A7C15#64

/-- `M1`, the first multiplier MULT_ONE. -/
def multOne : Word := 0xBF58476D1CE4E5B9#64

/-- `M2`, the second multiplier MULT_TWO. -/
def multTwo : Word := 0x94D049BB133111EB#64

/-- `A1`, the first XOR-shift amount. -/
def xorShiftOne : Nat := 30

/-- `A2`, the second XOR-shift amount. -/
def xorShiftTwo : Nat := 27

/-- `A3`, the third XOR-shift amount. -/
def xorShiftThree : Nat := 31

/-- `RA`, the rotate amount applied to `s0`. -/
def rotateS0 : Nat := 55

/-- `SB`, the left-shift amount applied to the combined word. -/
def shiftCombined : Nat := 14

/-- `RC`, the rotate amount applied to the combined word. -/
def rotateCombined : Nat := 36

/-- The number of words of one expansion of the combined seeding; two of them make `SUBSEEDS = 8` (42_combined_seeding.md R110). -/
def halfSubseeds : Nat := 4

/-- `RESEED_INDEX`: the index from 0 of the word that seeds the second expansion, "the 3rd output". -/
def reseedIndex : Nat := 2

end Sys2Proof.Machine
end

