-- ==== Sys2Proof/Config.lean ====
section
/-!
DEFINITION. What an implementation fixes (00_scope.md R9) and the free values.
-/
namespace Sys2Proof.Config

/-- The reference value of the parameter `LANES` (R9: "the reference batches four 64-bit lanes").
DESIGN CHOICE (entry 3): `State.reset` is built with it; every statement holds for each `LANES` from 1 to 4. -/
def referenceLanes : Nat := 4

/-- The largest `LANES` the 2-bit lane field admits (R9: "integer, 1 to 4"). -/
def maxLanes : Nat := 4

/-- FREE VALUE (DESIGN CHOICE, entry 1): the unspecified content found by the `k`-th draw, that is by one read of a register
nothing has written since reset (10_state.md R30: "A model must not assume that two reads of an unwritten
register see the same value, nor that the value is zero"). No body: nothing can be proved of its values. -/
opaque freeWord : Nat → Word

end Sys2Proof.Config
end

