-- ==== Sys2Proof/Syntax.lean ====
section
/-!
DEFINITION. The commands of the block: one constructor per row of spec/opcode_table.json (30_encoding.md R59).
-/
namespace Sys2Proof

/-- A decoded command with its operand. Format `N` commands carry none: their operand is ignored (R58). -/
inductive Instr where
  /-- `SM.SEED v` (R79), format `W`. -/
  | smSeed (v : Word)
  /-- `SM.NEXT` (R80), format `N`. -/
  | smNext
  /-- `XO.LOAD sel, lane, v` (R94), format `L`; the lane field has two bits (R55). -/
  | xoLoad (sel : StateWord) (lane : Fin 4) (v : Word)
  /-- `XO.ADV` (R95), format `N`. -/
  | xoAdv
  /-- `XO.SEED v` (R112), format `W`. -/
  | xoSeed (v : Word)
  deriving DecidableEq, Repr

end Sys2Proof
end

