-- ==== Sys2Proof/WellFormed.lean ====
section
/-!
DEFINITION. Which commands exist on a block with `LANES` lanes (30_encoding.md R59, R62, R69).
-/
namespace Sys2Proof

/-- The one check on a command's fields: `XO.LOAD` addresses a lane that is present, `lane < LANES`
(20_memory.md R41, 30_encoding.md R57). Legality never depends on the operand or the state (R69). -/
def Instr.wellFormed (lanes : Nat) : Instr → Bool
  | .smSeed _ => true
  | .smNext => true
  | .xoLoad _ lane _ => decide (lane.val < lanes)
  | .xoAdv => true
  | .xoSeed _ => true

end Sys2Proof
end

