-- ==== Sys2Proof/Decode.lean ====
section
/-!
DEFINITION. The command decoder and the encoder (30_encoding.md R55 to R62).
-/
namespace Sys2Proof

/-- What crosses the command channel at an acceptance: the pair `(cmd, cmd_wdata)` (20_memory.md R52). -/
structure Command where
  word : BitVec 8
  operand : Word
  deriving DecidableEq, Repr

/-- The four classes of reserved command words (R62), each rejected by name. -/
inductive ReservedWord where
  /-- `op` in {0000, 0011, 0111, 1000..1111}. -/
  | unassignedOp
  /-- `op` in {0001, 0010, 0101, 0110} and `cmd[3:0]` not zero. -/
  | nonzeroLowNibble
  /-- `op = 0100` and `rsv = 1`. -/
  | rsvSet
  /-- `op = 0100`, `rsv = 0` and `lane >= LANES`. -/
  | laneAbsent
  deriving DecidableEq, Repr

/-- The field `op = cmd[7:4]` (R55). -/
def opField (c : BitVec 8) : BitVec 4 := c.extractLsb' 4 4

/-- The field `rsv = cmd[3]` (R55). -/
def rsvField (c : BitVec 8) : Bool := c.getLsbD 3

/-- The field `sel = cmd[2]` (R55). -/
def selField (c : BitVec 8) : StateWord := if c.getLsbD 2 then .s1 else .s0

/-- The field `lane = cmd[1:0]`, unsigned (R55). -/
def laneField (c : BitVec 8) : Fin 4 := ⟨c.toNat % 4, Nat.mod_lt _ (by decide)⟩

/-- Which class of R62 a word that is no command belongs to. -/
def reservedClass (c : BitVec 8) : ReservedWord :=
  if opField c = 0b0100#4 then
    if rsvField c then .rsvSet else .laneAbsent
  else if opField c = 0b0001#4 ∨ opField c = 0b0010#4 ∨ opField c = 0b0101#4 ∨ opField c = 0b0110#4 then
    .nonzeroLowNibble
  else .unassignedOp

/-- The decoder of R61 for a block with `lanes` lanes: total on the 256 command words. The operand plays no part
in the choice (R61) and is used whole by formats `W` and `L` (R58). -/
def decode (lanes : Nat) (c : BitVec 8) (v : Word) : Except ReservedWord Instr :=
  if c = 0x10#8 then .ok (.smSeed v)
  else if c = 0x20#8 then .ok .smNext
  else if c.extractLsb' 3 5 = 0b01000#5 ∧ (laneField c).val < lanes then
    .ok (.xoLoad (selField c) (laneField c) v)
  else if c = 0x50#8 then .ok .xoAdv
  else if c = 0x60#8 then .ok (.xoSeed v)
  else .error (reservedClass c)

/-- The command word and operand of a command (R57, R59, R66); the ignored operand of format `N` is shown as 0 (R66). -/
def encode : Instr → Command
  | .smSeed v => ⟨0x10#8, v⟩
  | .smNext => ⟨0x20#8, 0#64⟩
  | .xoLoad sel lane v => ⟨BitVec.ofNat 8 (0x40 + 4 * sel.sel + lane.val), v⟩
  | .xoAdv => ⟨0x50#8, 0#64⟩
  | .xoSeed v => ⟨0x60#8, v⟩

/-- The command whose bits, the command word first and the operand from bit 8 on, are the low `nbits` bits of `w`
and zero above. -/
def tableCommand (nbits w : Nat) : Command :=
  { word := BitVec.ofNat 8 (w % 2 ^ nbits), operand := BitVec.ofNat 64 (w % 2 ^ nbits / 2 ^ 8) }

/-- What the decoder, with the reference `LANES`, reads from a word numbered as spec/opcode_table.json numbers it
(DESIGN CHOICE, entry 11). -/
def decodeTableWord (nbits w : Nat) : Option Instr :=
  (decode Config.referenceLanes (tableCommand nbits w).word (tableCommand nbits w).operand).toOption

end Sys2Proof
end

