-- ==== Sys2Proof/Machine/State.lean ====
section
/-!
DEFINITION. The state of the block (10_state.md R20), as plain data, and the state after reset (R30).
-/
namespace Sys2Proof.Machine

/-- A 64-bit data register with the written mark of R29. While the mark is false, `value` is never what a command
reads: such a read is a free draw (`Reg.read`). -/
structure Reg where
  value : Word
  written : Bool
  deriving DecidableEq, Repr

/-- Lane `i`: the pair of registers `S0[i]`, `S1[i]` (00_scope.md R16, 10_state.md R22). -/
structure Lane where
  s0 : Reg
  s1 : Reg
  deriving DecidableEq, Repr

/-- Which unit produced a result beat: the unit tag of R27. -/
inductive ResultUnit where
  | smu
  | xru
  deriving DecidableEq, Repr

/-- One result beat (R27): its unit tag and its data, the `LANES` fields of 64 bits, field 0 first (20_memory.md R49). -/
structure Beat where
  unit : ResultUnit
  fields : List Word
  deriving DecidableEq, Repr

/-- What the host drives at one rising edge of `clk` (20_memory.md R51): reset, the command accepted at this edge if
`rst = 0` (R52), and whether it takes a beat (R53). -/
structure Edge where
  rst : Bool
  command : Option Command
  resReady : Bool
  deriving DecidableEq, Repr

/-- The state of the block (R20: `Z`, `S0[i]`, `S1[i]`, `RQ`) and three fields of the model's own.
`LANES` is the length of `lanes` (DESIGN CHOICE, entry 3); no command returns it and no step changes it. -/
structure State where
  /-- `Z`, the accumulator of the SMU (R21). -/
  z : Reg
  /-- The lanes of the XRU, lane 0 first (R22). -/
  lanes : List Lane
  /-- `RQ`, front first (R27). -/
  rq : List Beat
  /-- The model's own, DESIGN CHOICE (entry 4): what the host drives at the coming edges, next first. -/
  inputs : List Edge
  /-- The model's own, DESIGN CHOICE (entry 5): the beats the host has taken since the last reset, oldest first. -/
  taken : List Beat
  /-- The model's own, DESIGN CHOICE (entries 1 and 6): how many free values have been drawn. -/
  draws : Nat
  deriving DecidableEq, Repr

/-- Faults. There is none: the set of exceptions of the block is empty (60_exceptions.md R120), and a read of an
unwritten register is a free draw (R134, last sentence; DESIGN CHOICE, entry 1). Nobody raises one, which is safe. -/
inductive Fault where
  deriving DecidableEq, Repr

/-- Refusals. -/
inductive Refusal where
  /-- A command without a meaning, rejected by name by `exec`'s arm; safe. No arm is rejected so. -/
  | notModelled (mnemonic : String)
  /-- A reserved command word, with its class (30_encoding.md R62, R63: "a model must refuse it"). Raised by `accept`
  for a word the decoder rejects, and by `execXoLoad` for a lane that is absent (DEDUCED, entry 8); safe. -/
  | reserved (why : ReservedWord)
  deriving DecidableEq, Repr

/-- The parameter `LANES` of this block (00_scope.md R9). -/
abbrev State.laneCount (s : State) : Nat := s.lanes.length

/-- A register after reset: unwritten (R30). DESIGN CHOICE (entry 2): the stored word is 0; no read sees it. -/
def Reg.unwritten : Reg := { value := 0#64, written := false }

/-- A lane after reset: both state words unwritten (R30). -/
def Lane.unwritten : Lane := { s0 := Reg.unwritten, s1 := Reg.unwritten }

/-- The reset state of a block with `n` lanes (R30, 70_reset_and_hazards.md R140). -/
def State.resetFor (n : Nat) : State :=
  { z := Reg.unwritten, lanes := List.replicate n Lane.unwritten, rq := [], inputs := [], taken := [], draws := 0 }

/-- The machine right after reset, with the reference `LANES` (entry 3). -/
def State.reset : State := State.resetFor Config.referenceLanes

end Sys2Proof.Machine
end

