-- ==== Sys2Proof/Machine/Ops.lean ====
section
/-!
DEFINITION. The named operations over registers and the result queue: reading with the written mark (10_state.md R29),
writing, appending a beat.
-/
namespace Sys2Proof.Machine

/-- What a command reads from a register: its value when written; when unwritten, the free value of draw `k` (R29, R30,
60_exceptions.md R134; entry 1). -/
def Reg.read (r : Reg) (k : Nat) : Word := if r.written then r.value else Config.freeWord k

/-- A register in which a command has put a definite word (R29: it "becomes written"). -/
def Reg.load (v : Word) : Reg := { value := v, written := true }

/-- A lane is written when both its state words are (R29). -/
def Lane.written (l : Lane) : Bool := l.s0.written && l.s1.written

/-- `S0[i]` of a lane as a command reads it, the lane's draws starting at `k`. -/
def Lane.readS0 (l : Lane) (k : Nat) : Word := l.s0.read k

/-- `S1[i]` of a lane as a command reads it: a draw of its own (R30: two reads need not agree). -/
def Lane.readS1 (l : Lane) (k : Nat) : Word := l.s1.read (k + 1)

/-- `emit`: `RQ` with one beat appended at its back (00_scope.md R13, 10_state.md R27). -/
abbrev State.emitted (s : State) (b : Beat) : List Beat := s.rq ++ [b]

/-- The count of draws after a command that read `n` registers: it advances when one of them was unwritten, so that the
next draws are fresh (entry 1). -/
abbrev State.drawsAfter (s : State) (allWritten : Bool) (n : Nat) : Nat := if allWritten then s.draws else s.draws + n

end Sys2Proof.Machine
end

