-- ==== Sys2Proof/Machine/SplitMix64.lean ====
section
/-!
DEFINITION. The SplitMix64 mixer unit: `SM.SEED` and `SM.NEXT` (40_splitmix64.md R75 to R87).
-/
namespace Sys2Proof.Machine

/-- `xs(z, k) = z ^ (z >> k)` (R75). -/
def xorShift (z : Word) (k : Nat) : Word := z ^^^ (z >>> k)

/-- `mix(z)`: stages 2 to 6 of the recurrence (R76). -/
def mix (z : Word) : Word :=
  xorShift (xorShift (xorShift z xorShiftOne * multOne) xorShiftTwo * multTwo) xorShiftThree

/-- `smstep(z) = mix(z + G)`: the emitted word and the next accumulator (R77; the mixed word is fed back, 90_conflicts.md C2). -/
def smStep (z : Word) : Word := mix (z + golden)

/-- `expand(seed, n)`: the first `n` words of the chain of `smstep` from `seed` (R78). -/
def expand (seed : Word) : Nat → List Word
  | 0 => []
  | n + 1 => smStep seed :: expand (smStep seed) n

/-- `expand(seed, n)` has `n` words (R78). -/
theorem expand_length (seed : Word) (n : Nat) : (expand seed n).length = n := by
  induction n generalizing seed with
  | zero => rfl
  | succ n ih => simp [expand, ih]

/-- The beat of `SM.NEXT`: unit tag 0, the word in field 0, every other field zero (20_memory.md R49). -/
def smuBeat (lanes : Nat) (z : Word) : Beat :=
  { unit := .smu, fields := z :: List.replicate (lanes - 1) 0#64 }

/-- `SM.SEED v` (R79): `Z <- v`; everything else unchanged. -/
def execSmSeed (v : Word) (s : State) : Host.Outcome State Fault Refusal :=
  .next { s with z := Reg.load v }

/-- `SM.NEXT` (R80): `Z <- smstep(Z)` and one beat carrying the new `Z`. On an unwritten `Z` the step is taken from a
free value and `Z` stays unwritten (R29, R134; entry 1). -/
def execSmNext (s : State) : Host.Outcome State Fault Refusal :=
  .next { s with
    z := { value := smStep (s.z.read s.draws), written := s.z.written }
    rq := s.emitted (smuBeat s.laneCount (smStep (s.z.read s.draws)))
    draws := s.drawsAfter s.z.written 1 }

end Sys2Proof.Machine
end

