-- ==== Sys2Proof/Machine/Operands.lean ====
section
/-!
DEFINITION. The one addressed operand form: the state-word space `(sel, lane)` of the XRU (20_memory.md R41).
-/
namespace Sys2Proof.Machine

/-- The state word of a lane that `sel` selects (30_encoding.md R55). -/
def Lane.word (l : Lane) : StateWord → Reg
  | .s0 => l.s0
  | .s1 => l.s1

/-- A lane with one of its state words loaded, the other unchanged (41_xoroshiro128plus.md R94). -/
def Lane.loadWord (l : Lane) (sel : StateWord) (v : Word) : Lane :=
  match sel with
  | .s0 => { l with s0 := Reg.load v }
  | .s1 => { l with s1 := Reg.load v }

/-- Location `(sel, lane)` of the state-word space; none for a lane that is absent (R41). -/
abbrev State.stateWord? (s : State) (sel : StateWord) (lane : Nat) : Option Reg :=
  (s.lanes[lane]?).map (fun l => l.word sel)

/-- Writes location `(sel, lane)` of the state-word space and nothing else (R41, R94). -/
def State.writeStateWord (s : State) (sel : StateWord) (lane : Nat) (v : Word) : State :=
  { s with lanes := s.lanes.modify lane (fun l => l.loadWord sel v) }

end Sys2Proof.Machine
end

