-- ==== Sys2Proof/Machine/Xoroshiro128Plus.lean ====
section
/-!
DEFINITION. The xoroshiro128+ rotator unit: `XO.LOAD` and `XO.ADV` (41_xoroshiro128plus.md R90 to R103).
-/
namespace Sys2Proof.Machine

/-- `rotl(x, n) = (x << n) | (x >> (64 - n))`, for `1 <= n <= 63` (R91). -/
def rotl (x : Word) (n : Nat) : Word := (x <<< n) ||| (x >>> (64 - n))

/-- `xo_out(s0, s1)`: the output, from the state before the update (R92 a). -/
def xoOut (s0 s1 : Word) : Word := s0 + s1

/-- `xo_next(s0, s1)`, with `t = s1 ^ s0` in the three places the document says the updated `s1` (R92 b, c). -/
def xoNext (s0 s1 : Word) : Word × Word :=
  let t := s1 ^^^ s0
  (rotl s0 rotateS0 ^^^ t ^^^ (t <<< shiftCombined), rotl t rotateCombined)

/-- The output of one lane, its draws starting at `k` (R95). -/
def Lane.output (l : Lane) (k : Nat) : Word := xoOut (l.readS0 k) (l.readS1 k)

/-- One lane advanced once; it stays unwritten if either state word was (R95, 10_state.md R29). -/
def Lane.advance (l : Lane) (k : Nat) : Lane :=
  let n := xoNext (l.readS0 k) (l.readS1 k)
  { s0 := { value := n.1, written := l.written }, s1 := { value := n.2, written := l.written } }

/-- Every lane's state words are written: `XO.ADV` reads definite words only (R95, 30_encoding.md R69). -/
abbrev State.lanesWritten (s : State) : Bool := s.lanes.all Lane.written

/-- Where the draws of lane `i` start: each lane has two of its own. -/
abbrev State.laneDraw (s : State) (i : Nat) : Nat := s.draws + 2 * i

/-- The outputs of all lanes, lane 0 first (R95). -/
def State.laneOutputs (s : State) : List Word := s.lanes.mapIdx (fun i l => l.output (s.laneDraw i))

/-- All lanes advanced once, each from its own state only (R95, R96). -/
def State.lanesAdvanced (s : State) : List Lane := s.lanes.mapIdx (fun i l => l.advance (s.laneDraw i))

/-- `XO.LOAD sel, lane, v` (R94): one state word written. A lane that is absent is not this command but a reserved word
(R94 a, 30_encoding.md R62): refused by that name. -/
def execXoLoad (sel : StateWord) (lane : Fin 4) (v : Word) (s : State) : Host.Outcome State Fault Refusal :=
  if lane.val < s.laneCount then .next (s.writeStateWord sel lane.val v)
  else .refused (.reserved .laneAbsent)

/-- `XO.ADV` (R95): every lane's output in one beat, unit tag 1, field `i` from lane `i`, and every lane advanced. -/
def execXoAdv (s : State) : Host.Outcome State Fault Refusal :=
  .next { s with
    lanes := s.lanesAdvanced
    rq := s.emitted { unit := .xru, fields := s.laneOutputs }
    draws := s.drawsAfter s.lanesWritten (2 * s.laneCount) }

end Sys2Proof.Machine
end

