-- ==== Sys2Proof/Machine/CombinedSeeding.lean ====
section
/-!
DEFINITION. Combined seeding: `XO.SEED` (42_combined_seeding.md R110 to R118).
-/
namespace Sys2Proof.Machine

/-- The word that seeds the second expansion: the 3rd output of the first (R110). -/
def reseedWord (v : Word) : Word :=
  (expand v halfSubseeds)[reseedIndex]'(by rw [expand_length]; decide)

/-- `seed8(v)`: two expansions of four words, the second seeded from the third word of the first (R110). -/
def seed8 (v : Word) : List Word := expand v halfSubseeds ++ expand (reseedWord v) halfSubseeds

/-- The eight sub-seed words (R110). -/
theorem seed8_length (v : Word) : (seed8 v).length = 8 := by
  simp [seed8, expand_length, halfSubseeds]

/-- The mapping of sub-seed words onto state words: lane `i` gets `S0 = w[i]`, `S1 = w[4 + i]` (R113). -/
def seedLanes (w : List Word) : List Lane :=
  List.zipWith (fun a b => { s0 := Reg.load a, s1 := Reg.load b }) (w.take halfSubseeds) (w.drop halfSubseeds)

/-- `XO.SEED v` (R112): the lanes present are loaded, the words of absent lanes discarded (R114), `Z <- w[7]`. -/
def execXoSeed (v : Word) (s : State) : Host.Outcome State Fault Refusal :=
  .next { s with
    z := Reg.load ((seed8 v)[7]'(by rw [seed8_length]; decide))
    lanes := (seedLanes (seed8 v)).take s.laneCount }

end Sys2Proof.Machine
end

