-- ==== Sys2Proof/Machine/Dispatch.lean ====
section
/-!
DEFINITION. One arm per command, each one direct call of its meaning (30_encoding.md R59).
-/
namespace Sys2Proof.Machine

def exec (i : Instr) (s : State) : Host.Outcome State Fault Refusal :=
  match i with
  | .smSeed v => Sys2Proof.Machine.execSmSeed v s
  | .smNext => Sys2Proof.Machine.execSmNext s
  | .xoLoad sel lane v => Sys2Proof.Machine.execXoLoad sel lane v s
  | .xoAdv => Sys2Proof.Machine.execXoAdv s
  | .xoSeed v => Sys2Proof.Machine.execXoSeed v s

end Sys2Proof.Machine
end

