-- ==== Sys2Proof/Machine/Ports.lean ====
section
/-!
DEFINITION. The ports of the block (20_memory.md R51 to R53): reset, the command channel, the result channel.
-/
namespace Sys2Proof.Machine

/-- The unit tag as the wire `res_unit` carries it: 0 for `SM.NEXT`, 1 for `XO.ADV` (R27, R49). -/
def ResultUnit.bit : ResultUnit → BitVec 1
  | .smu => 0#1
  | .xru => 1#1

/-- Fields as one number, field 0 least significant. -/
def packFields : List Word → Nat
  | [] => 0
  | w :: ws => w.toNat + 2 ^ 64 * packFields ws

/-- `res_data`: field `i` is bits `64*i + 63` down to `64*i` (R49). -/
def Beat.resData (b : Beat) : BitVec (64 * b.fields.length) := BitVec.ofNat _ (packFields b.fields)

/-- `res_valid`: `RQ` is not empty, and never during reset (R53, 70_reset_and_hazards.md R140). -/
abbrev State.resValid (s : State) (rst : Bool) : Bool := !rst && !s.rq.isEmpty

/-- The beat on the result channel: the front of `RQ` (R53). -/
abbrev State.front? (s : State) : Option Beat := s.rq.head?

/-- The host takes the front beat; with `RQ` empty there is none to take (R53). -/
def State.takeBeat (s : State) : State :=
  match s.rq with
  | [] => s
  | b :: rest => { s with rq := rest, taken := s.taken ++ [b] }

/-- `rst`: the reset state of a block with as many lanes; untaken beats are lost (R140, R141). What the host drives next
is the host's own and stays, and so does the count of draws, so that later draws are fresh (DESIGN CHOICE, entries 5 and 6). -/
def State.applyReset (s : State) : State :=
  { State.resetFor s.laneCount with inputs := s.inputs, draws := s.draws }

/-- An accepted command: decoded for this block's `LANES` and executed; a reserved word is refused (R52, 30_encoding.md R61, R63). -/
def accept (c : Command) (s : State) : Host.Outcome State Fault Refusal :=
  match decode s.laneCount c.word c.operand with
  | .ok i => exec i s
  | .error why => .refused (.reserved why)

/-- The command channel at one edge: nothing offered changes nothing (R52). -/
def offer (c : Option Command) (s : State) : Host.Outcome State Fault Refusal :=
  match c with
  | none => .next s
  | some c => accept c s

/-- One rising edge. `rst` overrides both handshakes (60_exceptions.md R123); otherwise the beat on the result channel is
taken if the host is ready, and the command, if any, is executed: the beat taken is the front as it was before the edge
(DESIGN CHOICE, entry 10). -/
def edge (e : Edge) (s : State) : Host.Outcome State Fault Refusal :=
  if e.rst then .next s.applyReset
  else offer e.command (if e.resReady then s.takeBeat else s)

/-- The edge at which the host has the block accept one command and does nothing else. -/
def Edge.ofCommand (c : Command) : Edge := { rst := false, command := some c, resReady := false }

/-- The host is about to drive edge `e`. -/
def State.offered (s : State) (e : Edge) : State := { s with inputs := e :: s.inputs }

end Sys2Proof.Machine
end

