-- ==== Sys2Proof/Machine/Step.lean ====
section
/-!
DEFINITION. One step: the next edge the host drives; with none, the block is idle and nothing changes (20_memory.md R52,
60_exceptions.md R133).
-/
namespace Sys2Proof.Machine

/-- One step of the machine. -/
def step (s : State) : Host.Outcome State Fault Refusal :=
  match s.inputs with
  | [] => .next s
  | e :: rest => edge e { s with inputs := rest }

/-- `s` with the command of a table word as the next one the host has the block accept: the block fetches nothing, commands
come from the host (10_state.md R25). -/
def State.withFetchWord (s : State) (nbits w : Nat) : State := s.offered (Edge.ofCommand (tableCommand nbits w))

end Sys2Proof.Machine
end

