-- ==== Sys2Proof/Safety.lean ====
section
/-!
DEFINITION. What counts as a good run, in the terms the claims use: legal and well-defined commands (30_encoding.md R69),
the invariant of the state, the observable of a run (70_reset_and_hazards.md R155), sequences of commands.
-/
namespace Sys2Proof.Machine

/-- A command reads only registers that are written: "`SM.NEXT` needs `Z` written; `XO.ADV` needs every `S0[i]`, `S1[i]`
written", the others read no register (30_encoding.md R69). -/
def wellDefined (s : State) : Instr → Bool
  | .smSeed _ => true
  | .smNext => s.z.written
  | .xoLoad _ _ _ => true
  | .xoAdv => s.lanesWritten
  | .xoSeed _ => true

/-- A good command: legal on this block and well-defined in this state. A claim about exact values is about good commands:
60_exceptions.md R134 says of the others that "no claim may be made about the values". -/
def goodCommand (s : State) (i : Instr) : Bool := i.wellFormed s.laneCount && wellDefined s i

/-- The commands that append a beat (10_state.md R27). -/
def emits : Instr → Bool
  | .smSeed _ => false
  | .smNext => true
  | .xoLoad _ _ _ => false
  | .xoAdv => true
  | .xoSeed _ => false

/-- A beat as a block with `n` lanes makes them: `n` fields, and for unit tag 0 every field but field 0 is zero (20_memory.md R49). -/
abbrev Beat.Wf (n : Nat) (b : Beat) : Prop :=
  b.fields.length = n ∧ (b.unit = .smu → b.fields.tail = List.replicate (n - 1) 0#64)

/-- The invariant: `LANES` is 1 to 4 (00_scope.md R9), and every beat made since the reset has the layout of R49. -/
abbrev State.Wf (s : State) : Prop :=
  1 ≤ s.laneCount ∧ s.laneCount ≤ Config.maxLanes ∧ ∀ b ∈ s.taken ++ s.rq, b.Wf s.laneCount

/-- The observable of the run since the last reset: every beat appended, in order (R155). -/
abbrev State.observable (s : State) : List Beat := s.taken ++ s.rq

/-- The run is over: no edge is left and the host has taken every beat (R155). -/
abbrev State.runOver (s : State) : Bool := s.inputs.isEmpty && s.rq.isEmpty

/-- A lane in the degenerate state: both words written and zero (00_scope.md R16, 41_xoroshiro128plus.md R97). -/
def Lane.degenerate (l : Lane) : Bool := l.written && l.s0.value == 0#64 && l.s1.value == 0#64

/-- The host's duty H-3 is met: no lane is in the degenerate state (70_reset_and_hazards.md R145, R146). -/
abbrev State.nonDegenerate (s : State) : Bool := s.lanes.all (fun l => !l.degenerate)

/-- A sequence of commands, each seeing the writes of the earlier ones (20_memory.md R45); the first stop ends it. -/
def execAll : List Instr → State → Host.Outcome State Fault Refusal
  | [], s => .next s
  | i :: is, s =>
    match exec i s with
    | .next t => execAll is t
    | .fault r => .fault r
    | .refused r => .refused r

/-- A run of accepted commands is good when each of them is a good command at its turn (30_encoding.md R69, 60_exceptions.md R134 a). -/
def goodRun : List Command → State → Bool
  | [], _ => true
  | c :: cs, s =>
    match decode s.laneCount c.word c.operand with
    | .error _ => false
    | .ok i =>
      wellDefined s i &&
        match exec i s with
        | .next t => goodRun cs t
        | .fault _ => false
        | .refused _ => false

/-- `k` steps; the first stop ends them. -/
def steps : Nat → State → Host.Outcome State Fault Refusal
  | 0, s => .next s
  | k + 1, s =>
    match step s with
    | .next t => steps k t
    | .fault r => .fault r
    | .refused r => .refused r

/-- `XO.LOAD` of the words `ws` into the state words `sel` of lanes 0, 1, ... -/
def loadsOf (sel : StateWord) (ws : List Word) : List Instr :=
  List.zipWith (fun lane v => Instr.xoLoad sel lane v) (List.finRange 4) ws

/-- The host-mediated seeding sequence on a block with `n` lanes (42_combined_seeding.md R115), `w` being the sub-seed words
and `reseed` the third of them. -/
def hostSeeding (n : Nat) (v reseed : Word) (w : List Word) : List Instr :=
  [.smSeed v, .smNext, .smNext, .smNext, .smNext, .smSeed reseed, .smNext, .smNext, .smNext, .smNext]
    ++ loadsOf .s0 ((w.take 4).take n) ++ loadsOf .s1 ((w.drop 4).take n)

/-- A register with the word it stores forgotten where no read can see it. -/
def Reg.masked (r : Reg) : Reg := if r.written then r else Reg.unwritten

/-- A lane with its registers masked. -/
def Lane.masked (l : Lane) : Lane := { s0 := l.s0.masked, s1 := l.s1.masked }

/-- A state with the stored words of its unwritten registers forgotten. -/
def State.masked (s : State) : State := { s with z := s.z.masked, lanes := s.lanes.map Lane.masked }

end Sys2Proof.Machine

namespace Sys2Proof

/-- The command with operand `v` in place of its own; format `N` has none (30_encoding.md R56). -/
def Instr.withOperand (v : Word) : Instr → Instr
  | .smSeed _ => .smSeed v
  | .smNext => .smNext
  | .xoLoad sel lane _ => .xoLoad sel lane v
  | .xoAdv => .xoAdv
  | .xoSeed _ => .xoSeed v

end Sys2Proof
end

