-- ==== Sys2Proof/Certificates/Slice0/Obligations.lean ====
section
/-!
DEFINITION. The statements about the L3 PRNG core, from the spec's numbered rules. Each docstring names the rule it formalises.
A value or behaviour the model chose is named with its log entry.
-/

open Sys2Proof Sys2Proof.Machine

/-! ### Encoding and decoding -/

/-- R57 whole: the command word of `XO.LOAD` is `0x40 + 4 * sel + lane`, with `op = 0100`, `rsv = 0`, `sel = cmd[2]` and
`lane = cmd[1:0]`; it decodes to that load when `lane < LANES` and is reserved otherwise. -/
def Obligations.LoadWordsDecodeByFormula : Prop :=
  ∀ (lanes : Nat) (sel : StateWord) (lane : Fin 4) (v : Word),
    let c : BitVec 8 := BitVec.ofNat 8 (0x40 + 4 * sel.sel + lane.val)
    encode (.xoLoad sel lane v) = ⟨c, v⟩ ∧
    opField c = 0b0100#4 ∧ rsvField c = false ∧ selField c = sel ∧ laneField c = lane ∧
    decode lanes c v = if lane.val < lanes then .ok (.xoLoad sel lane v) else .error .laneAbsent

/-- R59: the words of the opcode map, and two of the words R60 and R57 reserve, decode as the tables say, whatever the operand. -/
def Obligations.OpcodeMapWordsDecode : Prop :=
  ∀ v : Word,
    decode 4 0x10#8 v = .ok (.smSeed v) ∧ decode 4 0x20#8 v = .ok .smNext ∧
    decode 4 0x46#8 v = .ok (.xoLoad .s1 2 v) ∧ decode 4 0x50#8 v = .ok .xoAdv ∧
    decode 4 0x60#8 v = .ok (.xoSeed v) ∧
    decode 4 0x00#8 v = .error .unassignedOp ∧ decode 1 0x41#8 v = .error .laneAbsent

/-- R62 whole, class by class: exactly the words it lists are reserved, for every `LANES`. -/
def Obligations.ReservedWordsAreExactlyTheListed : Prop :=
  ∀ (lanes : Nat) (c : BitVec 8) (v : Word),
    (decode lanes c v = .error .unassignedOp ↔
      opField c = 0#4 ∨ opField c = 3#4 ∨ opField c = 7#4 ∨ 8 ≤ (opField c).toNat) ∧
    (decode lanes c v = .error .nonzeroLowNibble ↔
      (opField c = 1#4 ∨ opField c = 2#4 ∨ opField c = 5#4 ∨ opField c = 6#4) ∧ c.extractLsb' 0 4 ≠ 0#4) ∧
    (decode lanes c v = .error .rsvSet ↔ opField c = 4#4 ∧ rsvField c = true) ∧
    (decode lanes c v = .error .laneAbsent ↔
      opField c = 4#4 ∧ rsvField c = false ∧ lanes ≤ (laneField c).val)

/-- R61: "The number of legal command words is `4 + 2 * LANES`". -/
def Obligations.LegalWordCount : Prop :=
  ∀ lanes ∈ [1, 2, 3, 4], ∀ v : Word,
    ((List.range 256).countP fun n => (decode lanes (BitVec.ofNat 8 n) v).toOption.isSome) = 4 + 2 * lanes

/-- R58, R61: the operand plays no part in decoding, formats `W` and `L` take it whole, and in format `N` no bit of it
influences the state or the result. In a state where the command reads an unwritten register the last clause is only that
one state draws one value (the model's choice, log entry 1), not that two blocks agree. -/
def Obligations.OperandIsUsedWholeOrIgnored : Prop :=
  ∀ (lanes : Nat) (c : BitVec 8) (v w : Word),
    (∀ i, decode lanes c v = .ok i → decode lanes c w = .ok (i.withOperand w)) ∧
    (∀ r, decode lanes c v = .error r → decode lanes c w = .error r) ∧
    (∀ s : State, c = 0x20#8 ∨ c = 0x50#8 → accept ⟨c, v⟩ s = accept ⟨c, w⟩ s)

/-- From R55 to R61: decoding an encoded command that is legal on the block gives it back, every operand at every value. -/
def Obligations.DecodeOfEncodeIsIdentity : Prop :=
  ∀ (lanes : Nat) (i : Instr), i.wellFormed lanes = true →
    decode lanes (encode i).word (encode i).operand = .ok i

/-- From R59 and R61: a command decoded from a word is legal on the block, encodes to that word, and, unless it ignores its
operand, carries the operand. -/
def Obligations.EncodeOfDecodeIsIdentity : Prop :=
  ∀ (lanes : Nat) (c : BitVec 8) (v : Word) (i : Instr), decode lanes c v = .ok i →
    i.wellFormed lanes = true ∧ (encode i).word = c ∧ (i ≠ .smNext → i ≠ .xoAdv → (encode i).operand = v)

/-! ### The SplitMix64 mixer unit -/

/-- R75 whole: `xs(z, k) = z ^ (z >> k)` bit by bit, and the amounts the SMU uses. -/
def Obligations.XorShiftBitByBit : Prop :=
  (∀ (z : Word) (k : Nat), 1 ≤ k → k ≤ 63 →
    xorShift z k = z ^^^ (z >>> k) ∧
    ∀ i, i < 64 → (xorShift z k).getLsbD i =
      if i + k ≤ 63 then (z.getLsbD i ^^ z.getLsbD (i + k)) else z.getLsbD i) ∧
  xorShiftOne = 30 ∧ xorShiftTwo = 27 ∧ xorShiftThree = 31

/-- R77: the six stages, with the constants as the document writes them, and `smstep(z) = mix(z + G)`. -/
def Obligations.StepIsTheSixStages : Prop :=
  ∀ z : Word,
    let z1 := z + 0x9E3779B97F4A7C15#64
    let z2 := z1 ^^^ (z1 >>> 30)
    let z3 := z2 * 0xBF58476D1CE4E5B9#64
    let z4 := z3 ^^^ (z3 >>> 27)
    let z5 := z4 * 0x94D049BB133111EB#64
    let z6 := z5 ^^^ (z5 >>> 31)
    smStep z = z6 ∧ smStep z = mix (z + golden)

/-- R12, R77: the step computed on unbounded integers reduced modulo `2^64`: addition and multiplication wrap, the shifts
are divisions by powers of two. -/
def Obligations.StepOnUnboundedIntegers : Prop :=
  ∀ z : Word,
    let n1 := (z.toNat + 0x9E3779B97F4A7C15) % 2 ^ 64
    let n2 := n1 ^^^ (n1 / 2 ^ 30)
    let n3 := (n2 * 0xBF58476D1CE4E5B9) % 2 ^ 64
    let n4 := n3 ^^^ (n3 / 2 ^ 27)
    let n5 := (n4 * 0x94D049BB133111EB) % 2 ^ 64
    (smStep z).toNat = n5 ^^^ (n5 / 2 ^ 31)

/-- R83 (the spec's own derivation): every stage is a bijection with the stated inverse, hence so are `mix` and `smstep`, and the
two preimages it gives. -/
def Obligations.StagesAreBijections : Prop :=
  (∀ z : Word, z + golden + 0x61C8864680B583EB#64 = z) ∧
  (∀ z : Word, let y := xorShift z 30; z = y ^^^ (y >>> 30) ^^^ (y >>> 60)) ∧
  (∀ z : Word, let y := xorShift z 27; z = y ^^^ (y >>> 27) ^^^ (y >>> 54)) ∧
  (∀ z : Word, let y := xorShift z 31; z = y ^^^ (y >>> 31) ^^^ (y >>> 62)) ∧
  multOne * 0x96DE1B173F119089#64 = 1#64 ∧ multTwo * 0x319642B2D24D8EC3#64 = 1#64 ∧
  Function.Bijective (fun z : Word => z + golden) ∧ Function.Bijective (fun z : Word => xorShift z 30) ∧
  Function.Bijective (fun z : Word => z * multOne) ∧ Function.Bijective (fun z : Word => xorShift z 27) ∧
  Function.Bijective (fun z : Word => z * multTwo) ∧ Function.Bijective (fun z : Word => xorShift z 31) ∧
  Function.Bijective mix ∧ Function.Bijective smStep ∧
  (∀ z, smStep z = 0#64 ↔ z = 0x61C8864680B583EB#64) ∧
  (∀ z, smStep z = 1#64 ↔ z = 0xF8364607E9C949BD#64)

/-- R78 with the consequences the spec derives there: the words of an expansion are the iterates of `smstep`; the prefix and the chaining property. -/
def Obligations.ExpansionIsTheChain : Prop :=
  ∀ (seed : Word) (n : Nat),
    (expand seed n).length = n ∧
    (∀ k, k < n → (expand seed n)[k]? = some (smStep^[k + 1] seed)) ∧
    (∀ m, m ≤ n → expand seed m = (expand seed n).take m) ∧
    (∀ k m, expand (smStep^[k + 1] seed) m = (expand seed (k + 1 + m)).drop (k + 1))

/-- R79 whole: `SM.SEED v` loads `Z`, in every state and for every `v`; it becomes written and nothing else changes. -/
def Obligations.SeedLoadsAccumulator : Prop :=
  ∀ (v : Word) (s : State) (lanes : Nat),
    decode lanes 0x10#8 v = .ok (.smSeed v) ∧
    exec (.smSeed v) s = .next { s with z := { value := v, written := true } }

/-- R80 for a written `Z`: the next state, with one beat: unit tag 0, the new `Z` in field 0 and zeros above (R49). -/
def Obligations.NextStepsAccumulatorAndEmits : Prop :=
  ∀ s : State, s.z.written = true →
    exec .smNext s = .next { s with
      z := { value := smStep s.z.value, written := true }
      rq := s.rq ++ [{ unit := .smu, fields := smStep s.z.value :: List.replicate (s.laneCount - 1) 0#64 }] }

/-- R29, R134 (last sentence), for an unwritten `Z` (the model's choice among the two R134 allows, log entry 1): the command
completes on a free value, one beat carries what the step makes of it, `Z` stays unwritten and the count of draws moves on. -/
def Obligations.NextOnUnwrittenDrawsFreely : Prop :=
  ∀ s : State, s.z.written = false →
    exec .smNext s = .next { s with
      z := { value := smStep (Config.freeWord s.draws), written := false }
      rq := s.rq ++ [{ unit := .smu,
                       fields := smStep (Config.freeWord s.draws) :: List.replicate (s.laneCount - 1) 0#64 }]
      draws := s.draws + 1 }

/-- R81 (the spec's own derivation; that an interleaved `XO.ADV` completes beside unwritten state words is the model's choice, log
entry 1): after `SM.SEED seed`, any mix of `SM.NEXT` with `XO.LOAD` and `XO.ADV` gives, as its beats with unit tag 0, the words of
`expand(seed, n)` in order, `n` being the number of `SM.NEXT`, and leaves the last of them in `Z`. -/
def Obligations.CommandsRealiseExpansion : Prop :=
  ∀ (seed : Word) (cs : List Instr) (s : State),
    (∀ i ∈ cs, i = .smNext ∨ i = .xoAdv ∨ ∃ sel lane v, i = .xoLoad sel lane v ∧ lane.val < s.laneCount) →
    ∃ t beats, execAll (.smSeed seed :: cs) s = .next t ∧ t.rq = s.rq ++ beats ∧
      beats.filter (fun b => b.unit == .smu) =
        (expand seed (cs.count .smNext)).map
          (fun w => { unit := .smu, fields := w :: List.replicate (s.laneCount - 1) 0#64 }) ∧
      t.z = { value := smStep^[cs.count .smNext] seed, written := true }

/-- R84: the new `Z` and the emitted word of `SM.NEXT` are a function of a written `Z` alone: two states that agree on it
agree on both, whatever else differs (`LANES`, the lanes, the queue, the history). -/
def Obligations.NextDependsOnAccumulatorOnly : Prop :=
  ∀ s s' : State, s.z = s'.z → s.z.written = true →
    ∃ t t' b b', exec .smNext s = .next t ∧ exec .smNext s' = .next t' ∧ t.z = t'.z ∧
      t.rq = s.rq ++ [b] ∧ t'.rq = s'.rq ++ [b'] ∧ b.unit = b'.unit ∧ b.fields.head? = b'.fields.head?

/-! ### The xoroshiro128+ rotator unit -/

/-- R91 with the laws the spec derives there: a rotation bit by bit, the composition law and its round trip (55 then 9 among them), and `rotl` over `^`. -/
def Obligations.RotationLaws : Prop :=
  (∀ (x : Word) (n j : Nat), 1 ≤ n → n ≤ 63 → j < 64 →
    (rotl x n).getLsbD j = x.getLsbD ((j + 64 - n) % 64)) ∧
  (∀ (x : Word) (a b : Nat), 1 ≤ a → a ≤ 63 → 1 ≤ b → b ≤ 63 → (a + b) % 64 ≠ 0 →
    rotl (rotl x a) b = rotl x ((a + b) % 64)) ∧
  (∀ (x : Word) (a : Nat), 1 ≤ a → a ≤ 63 → rotl (rotl x a) (64 - a) = x) ∧
  (∀ x : Word, rotl (rotl x 55) 9 = x) ∧
  (∀ (x y : Word) (n : Nat), rotl (x ^^^ y) n = rotl x n ^^^ rotl y n)

/-- R92 whole: the output is taken from the state before the update, and `t = s1 ^ s0` stands in all three places. -/
def Obligations.AdvanceUsesUpdatedWord : Prop :=
  ∀ s0 s1 : Word,
    let t := s1 ^^^ s0
    let newS0 := ((s0 <<< 55) ||| (s0 >>> 9)) ^^^ t ^^^ (t <<< 14)
    let newS1 := (t <<< 36) ||| (t >>> 28)
    xoOut s0 s1 = s0 + s1 ∧ xoNext s0 s1 = (newS0, newS1)

/-- R98 (a) and (b) (the spec's own derivation): `xo_next` is linear over GF(2) and has the stated inverse, so a non-zero state never becomes zero. -/
def Obligations.AdvanceIsLinearAndInvertible : Prop :=
  (∀ a0 a1 b0 b1 : Word,
    xoNext (a0 ^^^ b0) (a1 ^^^ b1) =
      ((xoNext a0 a1).1 ^^^ (xoNext b0 b1).1, (xoNext a0 a1).2 ^^^ (xoNext b0 b1).2)) ∧
  (∀ s0 s1 : Word,
    let n := xoNext s0 s1
    let t := rotl n.2 28
    let r0 := rotl (n.1 ^^^ t ^^^ (t <<< 14)) 9
    (s0, s1) = (r0, t ^^^ r0)) ∧
  (∀ n0 n1 : Word,
    let t := rotl n1 28
    let r0 := rotl (n0 ^^^ t ^^^ (t <<< 14)) 9
    xoNext r0 (t ^^^ r0) = (n0, n1)) ∧
  (∀ s0 s1 : Word, xoNext s0 s1 = (0#64, 0#64) ↔ s0 = 0#64 ∧ s1 = 0#64)

/-- From R94: its command word is `0x40 + 4 * sel + lane`; `XO.LOAD` of a present lane completes in every state and for every
`v`: its one location holds `v` and is written, every other location is as before, and so is everything else; a lane that is
absent is not this command but a reserved word. That `exec`, given such a term directly, refuses it by that class is the
model's inference (DEDUCED, log entry 8). -/
def Obligations.LoadWritesOneStateWord : Prop :=
  ∀ (sel : StateWord) (lane : Fin 4) (v : Word) (s : State),
    (lane.val < s.laneCount →
      decode s.laneCount (BitVec.ofNat 8 (0x40 + 4 * sel.sel + lane.val)) v = .ok (.xoLoad sel lane v) ∧
      ∃ t, exec (.xoLoad sel lane v) s = .next t ∧ t = { s with lanes := t.lanes } ∧ t.laneCount = s.laneCount ∧
        ∀ (sel' : StateWord) (j : Nat),
          t.stateWord? sel' j =
            if j = lane.val ∧ sel' = sel then some { value := v, written := true } else s.stateWord? sel' j) ∧
    (s.laneCount ≤ lane.val →
      decode s.laneCount (BitVec.ofNat 8 (0x40 + 4 * sel.sel + lane.val)) v = .error .laneAbsent ∧
      exec (.xoLoad sel lane v) s = .refused (.reserved .laneAbsent))

/-- R95 for a block whose lanes are all written: every lane is advanced by `xo_next` and one beat, unit tag 1, carries
`xo_out` of lane `i` before the update in field `i`; nothing else changes. -/
def Obligations.AdvanceStepsEveryLaneAndEmits : Prop :=
  ∀ s : State, (∀ l ∈ s.lanes, l.s0.written = true ∧ l.s1.written = true) →
    exec .xoAdv s = .next { s with
      lanes := s.lanes.map fun l =>
        { s0 := { value := (xoNext l.s0.value l.s1.value).1, written := true }
          s1 := { value := (xoNext l.s0.value l.s1.value).2, written := true } }
      rq := s.rq ++ [{ unit := .xru, fields := s.lanes.map fun l => xoOut l.s0.value l.s1.value }] }

/-- R95, R96, R29, in every state: `XO.ADV` completes; a lane whose words are written gets the output and state of R92 even
when other lanes are unwritten; a lane with an unwritten word stays unwritten (that it completes there is the model's
choice, log entry 1). -/
def Obligations.WrittenLanesUnaffectedByUnwritten : Prop :=
  ∀ s : State, ∃ t outs, exec .xoAdv s = .next t ∧ t.rq = s.rq ++ [{ unit := .xru, fields := outs }] ∧
    outs.length = s.laneCount ∧ t.laneCount = s.laneCount ∧ t.z = s.z ∧
    ∀ (i : Nat) (l : Lane), s.lanes[i]? = some l →
      (l.s0.written = true → l.s1.written = true →
        outs[i]? = some (xoOut l.s0.value l.s1.value) ∧
        t.lanes[i]? = some
          { s0 := { value := (xoNext l.s0.value l.s1.value).1, written := true }
            s1 := { value := (xoNext l.s0.value l.s1.value).2, written := true } }) ∧
      (l.s0.written = false ∨ l.s1.written = false →
        ∃ l', t.lanes[i]? = some l' ∧ l'.s0.written = false ∧ l'.s1.written = false)

/-- R97: a lane in the degenerate state gives output 0 and stays there, whatever the other lanes hold (that `XO.ADV` completes
when some of them are unwritten is the model's choice, log entry 1). -/
def Obligations.DegenerateLaneIsFixed : Prop :=
  ∀ (s : State) (i : Nat),
    s.lanes[i]? = some { s0 := { value := 0#64, written := true }, s1 := { value := 0#64, written := true } } →
    ∃ t outs, exec .xoAdv s = .next t ∧ t.rq = s.rq ++ [{ unit := .xru, fields := outs }] ∧
      outs[i]? = some 0#64 ∧ t.lanes[i]? = s.lanes[i]?

/-- R97 (the spec's own derivation, which it asks a model to redo): the zero state is the only fixed point of `xo_next`. -/
def Obligations.ZeroStateIsTheOnlyFixedPoint : Prop :=
  ∀ s0 s1 : Word, xoNext s0 s1 = (s0, s1) ↔ s0 = 0#64 ∧ s1 = 0#64

/-- R96: for every `LANES`, every state and every `k`, after `k` advances a written lane `i` holds `xo_next` iterated `k` times
and field `i` of the `k` beats is what a block with that one lane emits (that the advances complete when other lanes are unwritten
is the model's choice, log entry 1). -/
def Obligations.LanesRunIndependently : Prop :=
  ∀ (k : Nat) (s : State) (i : Nat) (l : Lane), s.lanes[i]? = some l → l.s0.written = true → l.s1.written = true →
    ∃ t beats u ubeats,
      execAll (List.replicate k .xoAdv) s = .next t ∧ t.rq = s.rq ++ beats ∧
      execAll (List.replicate k .xoAdv) { State.resetFor 1 with lanes := [l] } = .next u ∧ u.rq = ubeats ∧
      beats.map (fun b => b.fields[i]?) = ubeats.map (fun b => b.fields[0]?) ∧ beats.length = k ∧
      t.lanes[i]? = u.lanes[0]? ∧
      (∀ j, j < k → (beats[j]?).bind (fun b => b.fields[i]?) =
        some (Function.uncurry xoOut ((Function.uncurry xoNext)^[j] (l.s0.value, l.s1.value)))) ∧
      t.lanes[i]? = some
        { s0 := { value := ((Function.uncurry xoNext)^[k] (l.s0.value, l.s1.value)).1, written := true }
          s1 := { value := ((Function.uncurry xoNext)^[k] (l.s0.value, l.s1.value)).2, written := true } }

/-- R81, R103: an SMU command and an XRU command that loads or advances may be interleaved freely: where both read written
registers only, either order leaves the `Z` the SMU command leaves alone and the lanes the XRU command leaves alone, and appends
the beats `bi` and `bj` each appends alone, in the order of the commands. -/
def Obligations.UnitsDoNotDisturbEachOther : Prop :=
  ∀ (s : State) (i j : Instr), (i = .smNext ∨ ∃ v, i = .smSeed v) →
    (j = .xoAdv ∨ ∃ sel lane v, j = .xoLoad sel lane v) →
    goodCommand s i = true → goodCommand s j = true →
    ∃ s1 s2 t u bi bj,
      exec i s = .next s1 ∧ s1.rq = s.rq ++ bi ∧ exec j s = .next s2 ∧ s2.rq = s.rq ++ bj ∧
      execAll [i, j] s = .next t ∧ execAll [j, i] s = .next u ∧
      t.z = s1.z ∧ u.z = t.z ∧ t.lanes = s2.lanes ∧ u.lanes = t.lanes ∧
      t.rq = s.rq ++ bi ++ bj ∧ u.rq = s.rq ++ bj ++ bi

/-! ### Combined seeding -/

/-- R110 whole: two expansions of four, the second seeded from `a[2]`. -/
def Obligations.SubseedsAreTwoExpansions : Prop :=
  ∀ v : Word, ∃ a2, (expand v 4)[2]? = some a2 ∧ seed8 v = expand v 4 ++ expand a2 4 ∧ (seed8 v).length = 8

/-- R111 (the spec's own derivation): the eight words continue one chain, so `w[4] = w[3]` for every seed, at most seven distinct values. -/
def Obligations.SubseedsOverlapInOneChain : Prop :=
  ∀ v : Word, ∃ e0 e1 e2 e3 e4 e5 e6,
    expand v 7 = [e0, e1, e2, e3, e4, e5, e6] ∧ seed8 v = [e0, e1, e2, e3, e3, e4, e5, e6]

/-- R112 whole: its command word is `0x60`; `XO.SEED v` completes in every state (`LANES` is at most 4, R9) and for every `v`:
`S0[i] = w[i]`, `S1[i] = w[4 + i]` for `i < LANES`, `Z = w[7]`, all written, nothing else changed, no beat. -/
def Obligations.SeedLoadsWholeGenerator : Prop :=
  ∀ (v : Word) (s : State), s.laneCount ≤ 4 →
    decode s.laneCount 0x60#8 v = .ok (.xoSeed v) ∧
    ∃ t w7, exec (.xoSeed v) s = .next t ∧ (seed8 v)[7]? = some w7 ∧
      t = { s with z := { value := w7, written := true }, lanes := t.lanes } ∧ t.laneCount = s.laneCount ∧
      ∀ i, i < s.laneCount →
        t.stateWord? .s0 i = ((seed8 v)[i]?).map (fun w => { value := w, written := true }) ∧
        t.stateWord? .s1 i = ((seed8 v)[4 + i]?).map (fun w => { value := w, written := true })

/-- R114 (its two consequences): whatever `LANES > i` is, lane `i` receives the same state from the same seed, and so does `Z`;
and the output stream of lane `i` is the same: field `i` of the beats of the `k` `XO.ADV` that follow, for every `k`. -/
def Obligations.SeededLaneSameForEveryLaneCount : Prop :=
  ∀ (v : Word) (s s' : State) (i k : Nat), s.laneCount ≤ 4 → s'.laneCount ≤ 4 → i < s.laneCount → i < s'.laneCount →
    ∃ t t' l u u' beats beats',
      exec (.xoSeed v) s = .next t ∧ exec (.xoSeed v) s' = .next t' ∧ t.z = t'.z ∧
      t.lanes[i]? = some l ∧ t'.lanes[i]? = some l ∧
      execAll (List.replicate k .xoAdv) t = .next u ∧ execAll (List.replicate k .xoAdv) t' = .next u' ∧
      u.rq = s.rq ++ beats ∧ u'.rq = s'.rq ++ beats' ∧ beats.length = k ∧
      (∀ b ∈ beats ++ beats', b.unit = .xru ∧ i < b.fields.length) ∧
      beats.map (fun b => b.fields[i]?) = beats'.map (fun b => b.fields[i]?) ∧ u.lanes[i]? = u'.lanes[i]?

/-- R115 (the spec's own derivation): `XO.SEED v` leaves exactly the registers the host-mediated sequence leaves, except that the sequence puts the eight
sub-seed words into `RQ` and `XO.SEED` puts nothing there. -/
def Obligations.SeedEqualsHostSequence : Prop :=
  ∀ (v : Word) (s : State), 1 ≤ s.laneCount → s.laneCount ≤ 4 →
    ∃ t u a2, exec (.xoSeed v) s = .next t ∧ (seed8 v)[2]? = some a2 ∧
      execAll (hostSeeding s.laneCount v a2 (seed8 v)) s = .next u ∧
      u.z = t.z ∧ u.lanes = t.lanes ∧ t.rq = s.rq ∧
      u.rq = s.rq ++ (seed8 v).map
        (fun w => { unit := .smu, fields := w :: List.replicate (s.laneCount - 1) 0#64 })

/-- R116 (the spec's own derivation): `XO.SEED` leaves no lane in the degenerate state, for any of the `2^64` seeds. -/
def Obligations.SeedNeverDegenerates : Prop :=
  ∀ (v : Word) (s : State), ∃ t, exec (.xoSeed v) s = .next t ∧ t.lanesWritten = true ∧
    ∀ l ∈ t.lanes, ¬ (l.s0.value = 0#64 ∧ l.s1.value = 0#64)

/-- R118 (the spec's own derivation): `SM.NEXT` after `XO.SEED` without a `SM.SEED` between is well-defined and gives `smstep(w[7])`. -/
def Obligations.NextAfterSeedContinuesChain : Prop :=
  ∀ (v : Word) (s : State), ∃ t w7, (seed8 v)[7]? = some w7 ∧ execAll [.xoSeed v, .smNext] s = .next t ∧
    t.z = { value := smStep w7, written := true } ∧ (t.rq.getLast?).bind (fun b => b.fields.head?) = some (smStep w7)

/-! ### The whole machine -/

/-- R23, what each command leaves unchanged and which register it writes (the host's side, `LANES` for `LANES <= 4`, and the
model's own count of draws included). -/
def Obligations.FrameOfEveryCommand : Prop :=
  ∀ (i : Instr) (s t : State), s.laneCount ≤ 4 → exec i s = .next t →
    t.inputs = s.inputs ∧ t.taken = s.taken ∧ t.laneCount = s.laneCount ∧
    (match i with
     | .smSeed _ => t.lanes = s.lanes ∧ t.rq = s.rq ∧ t.draws = s.draws
     | .smNext => t.lanes = s.lanes ∧ ∃ b, t.rq = s.rq ++ [b]
     | .xoLoad sel lane _ => t.z = s.z ∧ t.rq = s.rq ∧ t.draws = s.draws ∧
         ∀ (sel' : StateWord) (j : Nat), ¬ (j = lane.val ∧ sel' = sel) → t.stateWord? sel' j = s.stateWord? sel' j
     | .xoAdv => t.z = s.z ∧ ∃ b, t.rq = s.rq ++ [b]
     | .xoSeed _ => t.rq = s.rq ∧ t.draws = s.draws)

/-- R29: how each command moves the written marks; a mark is lost only in a lane one of whose words was unwritten when it was
advanced. -/
def Obligations.WrittenMarksMoveAsStated : Prop :=
  ∀ (i : Instr) (s t : State), exec i s = .next t →
    (t.z.written = match i with
      | .smSeed _ => true
      | .smNext => s.z.written
      | .xoLoad _ _ _ => s.z.written
      | .xoAdv => s.z.written
      | .xoSeed _ => true) ∧
    ∀ (j : Nat) (l l' : Lane), s.lanes[j]? = some l → t.lanes[j]? = some l' →
      match i with
      | .smSeed _ => l' = l
      | .smNext => l' = l
      | .xoLoad sel lane _ =>
          l'.s0.written = (l.s0.written || (decide (j = lane.val) && decide (sel = .s0))) ∧
          l'.s1.written = (l.s1.written || (decide (j = lane.val) && decide (sel = .s1)))
      | .xoAdv => l'.s0.written = (l.s0.written && l.s1.written) ∧ l'.s1.written = (l.s0.written && l.s1.written)
      | .xoSeed _ => l'.s0.written = true ∧ l'.s1.written = true

/-- R69, R120, R152: every command that is legal on the block completes, in every state: it neither faults nor is refused.
That a read of an unwritten register completes is the model's choice among the two of R134 (log entry 1). -/
def Obligations.LegalCommandsComplete : Prop :=
  ∀ (i : Instr) (s : State), i.wellFormed s.laneCount = true → ∃ t, exec i s = .next t

/-- R143, R144: `XO.SEED`, and equally a load of every state word, make `XO.ADV` well-defined; `SM.SEED` and `XO.SEED` make
`SM.NEXT` well-defined. -/
def Obligations.InitialisationMakesReadsDefined : Prop :=
  (∀ (v : Word) (s : State), ∃ t, exec (.smSeed v) s = .next t ∧ wellDefined t .smNext = true) ∧
  (∀ (v : Word) (s : State), ∃ t, exec (.xoSeed v) s = .next t ∧ wellDefined t .smNext = true ∧ wellDefined t .xoAdv = true) ∧
  (∀ (a b : List Word) (s : State), s.laneCount ≤ 4 → a.length = s.laneCount → b.length = s.laneCount →
    ∃ t, execAll (loadsOf .s0 a ++ loadsOf .s1 b) s = .next t ∧ wellDefined t .xoAdv = true ∧
      t.lanes = List.zipWith
        (fun x y => { s0 := { value := x, written := true }, s1 := { value := y, written := true } }) a b)

/-- R98, R116, R146: a block that meets the host's duty (no lane both written and zero) goes on meeting it under every command but
`XO.LOAD`: "the duty concerns loading only". -/
def Obligations.OnlyLoadsCanDegenerate : Prop :=
  ∀ (i : Instr) (s t : State), s.nonDegenerate = true → (∀ sel lane v, i ≠ .xoLoad sel lane v) →
    exec i s = .next t → t.nonDegenerate = true

/-- R30, U1 (log entries 1 and 2): the word stored in an unwritten register is never observed: forgetting it changes neither
the beats nor any written register, whatever command follows. -/
def Obligations.UnwrittenContentIsUnobservable : Prop :=
  ∀ (i : Instr) (s t : State), exec i s = .next t →
    ∃ t', exec i s.masked = .next t' ∧ t'.masked = t.masked ∧ t'.rq = t.rq

/-- R30, R140, for every `LANES`: after reset every data register is unwritten and `RQ` is empty. That `State.reset` is built with
the reference `LANES = 4` is the model's choice (log entry 3). -/
def Obligations.ResetLeavesEverythingUnwritten : Prop :=
  ∀ n : Nat, (State.resetFor n).z.written = false ∧ (State.resetFor n).lanes.length = n ∧
    (∀ l ∈ (State.resetFor n).lanes, l.s0.written = false ∧ l.s1.written = false) ∧ (State.resetFor n).rq = [] ∧
    State.reset = State.resetFor 4

/-- The invariant of `StepKeepsInvariant` holds right after reset, for every `LANES` from 1 to 4 (R9, R30). -/
def Obligations.ResetMeetsInvariant : Prop :=
  State.reset.Wf ∧ ∀ n, 1 ≤ n → n ≤ 4 → (State.resetFor n).Wf

/-- R9, R49 (with the model's own list `taken`, log entry 5): from every state in which `LANES` is 1 to 4 and every beat has the layout of R49, a step gives such a state. -/
def Obligations.StepKeepsInvariant : Prop :=
  ∀ s t : State, s.Wf → step s = .next t → t.Wf

/-- R9, R28: `LANES` is a build-time parameter: no step, reset included, changes it. -/
def Obligations.LaneCountNeverChanges : Prop :=
  ∀ s t : State, s.Wf → step s = .next t → t.laneCount = s.laneCount

/-- R45, R52: when the command accepted at the next edge decodes to `i`, the step is `exec i` at the state with that edge
consumed and, if the host is ready, the front beat taken. That edges stand in a list of the state is the model's own (log entry 4); so is that the beat is taken before
the command runs, at an edge that does both (log entry 10). -/
def Obligations.StepRunsDecodedCommand : Prop :=
  ∀ (s : State) (e : Edge) (rest : List Edge) (c : Command) (i : Instr),
    s.inputs = e :: rest → e.rst = false → e.command = some c → decode s.laneCount c.word c.operand = .ok i →
    step s = exec i (if e.resReady then State.takeBeat { s with inputs := rest } else { s with inputs := rest })

/-- R63, R120, R134: a step never faults (the free draw of R134's last sentence is the model's choice, log entry 1), and it refuses only when the next edge brings a reserved command word, by the
class of R62. -/
def Obligations.OnlyReservedWordsStopTheBlock : Prop :=
  (∀ (s : State) (f : Fault), step s ≠ .fault f) ∧
  (∀ (s : State) (r : Refusal), step s = .refused r ↔
    ∃ e rest c w, s.inputs = e :: rest ∧ e.rst = false ∧ e.command = some c ∧
      decode s.laneCount c.word c.operand = .error w ∧ r = .reserved w)

/-- R123, R140, R141: at an edge with `rst = 1` nothing is accepted and nothing taken, whatever else the host drives: the block is
in the reset state with its `LANES`, and untaken beats are lost. The model's own in the equation: that the count of draws and the
coming edges stay (log entries 4 and 6), that `taken` is emptied (log entry 5), and that the word stored in every register is 0
while its mark is unwritten (log entry 2), a word the spec leaves unspecified. -/
def Obligations.ResetOverridesEverything : Prop :=
  ∀ (s : State) (e : Edge) (rest : List Edge), s.inputs = e :: rest → e.rst = true →
    step s = .next { State.resetFor s.laneCount with inputs := rest, draws := s.draws }

/-- R52, R53: with nothing to accept a step changes no register; the host being ready takes the front beat if there is one;
with no edge left the block is idle. The lists of edges and of beats taken are the model's own (log entries 4 and 5). -/
def Obligations.HandshakesWithoutCommand : Prop :=
  (∀ s : State, s.inputs = [] → step s = .next s) ∧
  (∀ (s : State) (rest : List Edge), s.inputs = { rst := false, command := none, resReady := false } :: rest →
    step s = .next { s with inputs := rest }) ∧
  (∀ (s : State) (rest : List Edge) (b : Beat) (bs : List Beat),
    s.inputs = { rst := false, command := none, resReady := true } :: rest → s.rq = b :: bs →
    step s = .next { s with inputs := rest, rq := bs, taken := s.taken ++ [b] }) ∧
  (∀ (s : State) (rest : List Edge),
    s.inputs = { rst := false, command := none, resReady := true } :: rest → s.rq = [] →
    step s = .next { s with inputs := rest })

/-- R27, R50, R53: at every edge without reset beats are neither dropped nor repeated nor reordered: the observable grows at its
end by exactly one beat if the command is `SM.NEXT` or `XO.ADV`, by none otherwise, and the host takes at most the front beat. The
list `taken` is the model's own (log entry 5), and so is that the beat taken is the front before the edge, also when the command
appends one to an empty queue (log entry 10). -/
def Obligations.BeatsLeaveInCommandOrder : Prop :=
  ∀ (s t : State) (e : Edge) (rest : List Edge), s.inputs = e :: rest → e.rst = false → step s = .next t →
    ∃ new, t.observable = s.observable ++ new ∧
      (new.length = match e.command with
        | none => 0
        | some c => match decode s.laneCount c.word c.operand with
          | .ok i => if emits i then 1 else 0
          | .error _ => 0) ∧
      t.taken = s.taken ++ (if e.resReady then s.rq.take 1 else [])

/-- R53, R140 (the model's own list `taken`, log entry 5, and its instant visibility of beats, log entry 7): at an edge `res_valid` is
never 1 under `rst`, and otherwise exactly when `RQ` is not empty, and then there is a front beat. A beat is taken exactly when `res_valid = 1`,
`res_ready = 1` and `rst = 0`: it is the front one (before the edge, log entry 10), and leaves `RQ` there. A beat that is not taken
is held. With `res_valid = 0` and no reset none is taken. After an edge with `rst = 1` there is no beat, none having been taken at it. -/
def Obligations.ResultChannelPresentsFrontBeat : Prop :=
  ∀ (s : State) (e : Edge) (rest : List Edge), s.inputs = e :: rest →
    (s.resValid e.rst = true ↔ e.rst = false ∧ s.rq ≠ []) ∧
    (s.resValid e.rst = true → ∃ b, s.front? = some b) ∧
    ∀ t, step s = .next t →
      (∀ b, s.resValid e.rst = true → e.resReady = true → s.front? = some b →
        t.taken = s.taken ++ [b] ∧ ∃ new, s.rq ++ new = b :: t.rq) ∧
      (s.resValid e.rst = true → e.resReady = false → t.taken = s.taken ∧ t.front? = s.front?) ∧
      (s.resValid e.rst = false → e.rst = false → t.taken = s.taken) ∧
      (e.rst = true → t.taken = [] ∧ t.front? = none)

/-- R27, R49: the unit tag on the wire is 0 for the beat of `SM.NEXT` and 1 for the beat of `XO.ADV`, in every state, so that it tells
the host which of the two the beat belongs to (R50). That both complete on unwritten registers is the model's choice (log entry 1). -/
def Obligations.UnitTagTellsTheCommand : Prop :=
  ∀ s : State,
    (∃ t b, exec .smNext s = .next t ∧ t.rq = s.rq ++ [b] ∧ b.unit.bit = 0#1) ∧
    (∃ t b, exec .xoAdv s = .next t ∧ t.rq = s.rq ++ [b] ∧ b.unit.bit = 1#1) ∧
    ∀ a b : Beat, a.unit.bit = b.unit.bit → a.unit = b.unit

/-- R49 whole: field `i` of a beat is `res_data[64*i + 63 : 64*i]`, and the data of an `SM.NEXT` beat is `Z` zero-extended. -/
def Obligations.ResultDataLayout : Prop :=
  (∀ (b : Beat) (i : Nat) (h : i < b.fields.length), b.resData.extractLsb' (64 * i) 64 = b.fields[i]) ∧
  (∀ (n : Nat) (z : Word), 1 ≤ n → (smuBeat n z).fields.length = n ∧ (smuBeat n z).resData.toNat = z.toNat)

/-- R152: a run whose command words are all legal goes through all its edges; every step consumes one. That reads of unwritten
registers complete is the model's choice (log entry 1). -/
def Obligations.LegalRunsComplete : Prop :=
  ∀ (k : Nat) (s : State), s.Wf →
    (∀ e ∈ s.inputs, e.rst = false → ∀ c, e.command = some c → ∃ i, decode s.laneCount c.word c.operand = .ok i) →
    ∃ t, steps k s = .next t ∧ t.inputs = s.inputs.drop k

/-- R54, R155: two runs from one state with the same accepted commands have the same observable and the same registers, however the
host spaces the commands and takes the beats. Where a command reads an unwritten register the agreement is only that the model
draws the same value from the same state (the unsafe respect of log entry 1), not that two blocks agree: R30 and U1 promise
nothing there. `GoodRunsAgreeOnEveryBlock` is the statement that rests on written registers only. -/
def Obligations.ObservableIndependentOfHandshakes : Prop :=
  ∀ (s t u : State) (es fs : List Edge),
    (∀ e ∈ es, e.rst = false) → (∀ e ∈ fs, e.rst = false) →
    es.filterMap Edge.command = fs.filterMap Edge.command →
    steps es.length { s with inputs := es } = .next t →
    steps fs.length { s with inputs := fs } = .next u →
    t.observable = u.observable ∧ t.z = u.z ∧ t.lanes = u.lanes

/-- R54, R155 with R84 and R103, for good commands (legal, and reading written registers only): two blocks that agree on the written
marks, on the words of the written registers and on the beats so far, whatever is stored in an unwritten register and
whatever either block would draw from one, both go through the same commands to their end, and have the same observable
and the same final state with its marks, for every timing of the handshakes. -/
def Obligations.GoodRunsAgreeOnEveryBlock : Prop :=
  ∀ (s s' : State) (es fs : List Edge),
    (∀ e ∈ es, e.rst = false) → (∀ e ∈ fs, e.rst = false) →
    es.filterMap Edge.command = fs.filterMap Edge.command →
    s.z.masked = s'.z.masked → s.lanes.map Lane.masked = s'.lanes.map Lane.masked → s.observable = s'.observable →
    goodRun (es.filterMap Edge.command) s = true →
    ∃ t t', steps es.length { s with inputs := es } = .next t ∧ steps fs.length { s' with inputs := fs } = .next t' ∧
      t.observable = t'.observable ∧ t.z.masked = t'.z.masked ∧ t.lanes.map Lane.masked = t'.lanes.map Lane.masked
end

