-- ==== Sys2Proof/Laws/State.lean ====
section
/-!
SUPPORT. The small lemmas of the state's updates, one per field per update, true by rfl, and of the accessors.
-/
namespace Sys2Proof.Machine

section Results
variable (s : State) (b : Beat) (n : Nat)

/-- `emit` appends exactly the one beat (10_state.md R27). -/
theorem emitted_eq : s.emitted b = s.rq ++ [b] := rfl

/-- Reading written registers only draws nothing. -/
@[simp] theorem drawsAfter_written : s.drawsAfter true n = s.draws := rfl

/-- Reading an unwritten register moves the count on, so that later draws are fresh. -/
@[simp] theorem drawsAfter_unwritten : s.drawsAfter false n = s.draws + n := rfl
end Results

section WriteStateWord
variable (s : State) (sel : StateWord) (lane : Nat) (v : Word)
@[simp] theorem writeStateWord_z : (s.writeStateWord sel lane v).z = s.z := rfl
@[simp] theorem writeStateWord_rq : (s.writeStateWord sel lane v).rq = s.rq := rfl
@[simp] theorem writeStateWord_inputs : (s.writeStateWord sel lane v).inputs = s.inputs := rfl
@[simp] theorem writeStateWord_taken : (s.writeStateWord sel lane v).taken = s.taken := rfl
@[simp] theorem writeStateWord_draws : (s.writeStateWord sel lane v).draws = s.draws := rfl
@[simp] theorem writeStateWord_lanes :
    (s.writeStateWord sel lane v).lanes = s.lanes.modify lane (fun l => l.loadWord sel v) := rfl
@[simp] theorem writeStateWord_laneCount : (s.writeStateWord sel lane v).laneCount = s.laneCount := by
  simp [State.laneCount]
end WriteStateWord

section ApplyReset
variable (s : State)
@[simp] theorem applyReset_z : s.applyReset.z = Reg.unwritten := rfl
@[simp] theorem applyReset_lanes : s.applyReset.lanes = List.replicate s.laneCount Lane.unwritten := rfl
@[simp] theorem applyReset_rq : s.applyReset.rq = [] := rfl
@[simp] theorem applyReset_inputs : s.applyReset.inputs = s.inputs := rfl
@[simp] theorem applyReset_taken : s.applyReset.taken = [] := rfl
@[simp] theorem applyReset_draws : s.applyReset.draws = s.draws := rfl
@[simp] theorem applyReset_laneCount : s.applyReset.laneCount = s.laneCount := by
  simp [State.laneCount]
end ApplyReset

section TakeBeat
variable (s : State)
@[simp] theorem takeBeat_z : s.takeBeat.z = s.z := by unfold State.takeBeat; split <;> rfl
@[simp] theorem takeBeat_lanes : s.takeBeat.lanes = s.lanes := by unfold State.takeBeat; split <;> rfl
@[simp] theorem takeBeat_inputs : s.takeBeat.inputs = s.inputs := by unfold State.takeBeat; split <;> rfl
@[simp] theorem takeBeat_draws : s.takeBeat.draws = s.draws := by unfold State.takeBeat; split <;> rfl
@[simp] theorem takeBeat_laneCount : s.takeBeat.laneCount = s.laneCount := by simp [State.laneCount]

/-- Taking a beat moves it from the queue to the host; none is lost, repeated or reordered (20_memory.md R53). -/
@[simp] theorem takeBeat_observable : s.takeBeat.taken ++ s.takeBeat.rq = s.taken ++ s.rq := by
  unfold State.takeBeat; split <;> simp_all

/-- With a front beat, taking it removes it from the queue and hands it to the host (R53). -/
theorem takeBeat_of_front {b : Beat} {rest : List Beat} (h : s.rq = b :: rest) :
    s.takeBeat = { s with rq := rest, taken := s.taken ++ [b] } := by
  simp [State.takeBeat, h]

/-- With an empty queue there is nothing to take (R53). -/
theorem takeBeat_of_empty (h : s.rq = []) : s.takeBeat = s := by
  simp [State.takeBeat, h]
end TakeBeat

section ResultChannel
variable (s : State)
/-- `res_valid`: never under reset, otherwise exactly when the queue is not empty (R53, 70_reset_and_hazards.md R140). -/
@[simp] theorem resValid_iff (rst : Bool) : s.resValid rst = true ↔ rst = false ∧ s.rq ≠ [] := by
  simp [State.resValid]

@[simp] theorem front?_of_cons {b : Beat} {rest : List Beat} (h : s.rq = b :: rest) : s.front? = some b := by
  simp [State.front?, h]

@[simp] theorem front?_of_nil (h : s.rq = []) : s.front? = none := by simp [State.front?, h]

/-- The tag on the wire tells the unit (10_state.md R27). -/
theorem bit_injective {u v : ResultUnit} (h : u.bit = v.bit) : u = v := by
  cases u <;> cases v <;> first | rfl | exact absurd h (by decide)
end ResultChannel

section Registers
variable (r : Reg) (k : Nat)
@[simp] theorem load_value (v : Word) : (Reg.load v).value = v := rfl
@[simp] theorem load_written (v : Word) : (Reg.load v).written = true := rfl
@[simp] theorem unwritten_written : Reg.unwritten.written = false := rfl

/-- A written register reads as the word it holds (10_state.md R29). -/
theorem read_written (h : r.written = true) : r.read k = r.value := by simp [Reg.read, h]

/-- An unwritten register reads as a free value (60_exceptions.md R134). -/
theorem read_unwritten (h : r.written = false) : r.read k = Config.freeWord k := by simp [Reg.read, h]
end Registers

section Masked
variable (r : Reg) (k : Nat)
/-- Masking never changes what a command reads (10_state.md R30). -/
@[simp] theorem masked_read : r.masked.read k = r.read k := by
  unfold Reg.masked; split
  · rfl
  · rename_i h; simp [Reg.read, h]

@[simp] theorem masked_written : r.masked.written = r.written := by
  unfold Reg.masked; split <;> simp_all

/-- A written register is its own mask. -/
theorem masked_of_written (h : r.written = true) : r.masked = r := by simp [Reg.masked, h]
end Masked

section StateWords
variable (l : Lane) (v : Word)
@[simp] theorem loadWord_word_same (sel : StateWord) : (l.loadWord sel v).word sel = Reg.load v := by cases sel <;> rfl
@[simp] theorem loadWord_word_other {sel sel' : StateWord} (h : sel ≠ sel') :
    (l.loadWord sel v).word sel' = l.word sel' := by cases sel <;> cases sel' <;> first | rfl | contradiction
end StateWords

end Sys2Proof.Machine
end

