-- ==== Sys2Proof/Laws/Lanes.lean ====
section
/-!
SUPPORT. What the operations over lanes do: reading a written lane, the state-word space, the lanes after `XO.ADV` and
after `XO.SEED`.
-/
namespace Sys2Proof.Machine

theorem lane_written_iff (l : Lane) : l.written = true ↔ l.s0.written = true ∧ l.s1.written = true := by
  simp [Lane.written]

/-- The output of a written lane is the function of R92, whatever the draws are. -/
theorem output_of_written {l : Lane} (h : l.written = true) (k : Nat) :
    l.output k = xoOut l.s0.value l.s1.value := by
  obtain ⟨h0, h1⟩ := (lane_written_iff l).1 h
  simp [Lane.output, Lane.readS0, Lane.readS1, Reg.read, h0, h1]

/-- The next state of a written lane is the function of R92, both words written. -/
theorem advance_of_written {l : Lane} (h : l.written = true) (k : Nat) :
    l.advance k = { s0 := Reg.load (xoNext l.s0.value l.s1.value).1, s1 := Reg.load (xoNext l.s0.value l.s1.value).2 } := by
  have ⟨h0, h1⟩ := (lane_written_iff l).1 h
  simp [Lane.advance, Lane.readS0, Lane.readS1, Reg.read, Reg.load, h0, h1, h]

/-- A lane with an unwritten word stays unwritten (10_state.md R29). -/
theorem advance_written (l : Lane) (k : Nat) : (l.advance k).written = l.written := by
  simp [Lane.advance, Lane.written]

@[simp] theorem laneOutputs_length (s : State) : s.laneOutputs.length = s.laneCount := by
  simp [State.laneOutputs, State.laneCount]

@[simp] theorem lanesAdvanced_length (s : State) : s.lanesAdvanced.length = s.laneCount := by
  simp [State.lanesAdvanced, State.laneCount]

/-- Lane `i` after `XO.ADV` comes from lane `i` before it alone (41_xoroshiro128plus.md R96). -/
theorem lanesAdvanced_getElem? (s : State) (i : Nat) :
    s.lanesAdvanced[i]? = (s.lanes[i]?).map (fun l => l.advance (s.laneDraw i)) := by
  simp [State.lanesAdvanced, List.getElem?_mapIdx]

/-- Field `i` of the beat of `XO.ADV` comes from lane `i` alone (R96). -/
theorem laneOutputs_getElem? (s : State) (i : Nat) :
    s.laneOutputs[i]? = (s.lanes[i]?).map (fun l => l.output (s.laneDraw i)) := by
  simp [State.laneOutputs, List.getElem?_mapIdx]

/-- On a block whose lanes are all written, `XO.ADV` draws nothing: the outputs are those of R92. -/
theorem laneOutputs_of_written {s : State} (h : s.lanesWritten = true) :
    s.laneOutputs = s.lanes.map (fun l => xoOut l.s0.value l.s1.value) := by
  simp only [State.lanesWritten, List.all_eq_true] at h
  refine List.ext_getElem? fun i => ?_
  rw [laneOutputs_getElem?, List.getElem?_map]
  cases hl : s.lanes[i]? with
  | none => rw [Option.map_none, Option.map_none]
  | some l => exact congrArg some (output_of_written (h l (List.mem_of_getElem? hl)) _)

/-- On a block whose lanes are all written, `XO.ADV` draws nothing: the new lanes are those of R92. -/
theorem lanesAdvanced_of_written {s : State} (h : s.lanesWritten = true) :
    s.lanesAdvanced = s.lanes.map (fun l =>
      ({ s0 := Reg.load (xoNext l.s0.value l.s1.value).1, s1 := Reg.load (xoNext l.s0.value l.s1.value).2 } : Lane)) := by
  simp only [State.lanesWritten, List.all_eq_true] at h
  refine List.ext_getElem? fun i => ?_
  rw [lanesAdvanced_getElem?, List.getElem?_map]
  cases hl : s.lanes[i]? with
  | none => rw [Option.map_none, Option.map_none]
  | some l => exact congrArg some (advance_of_written (h l (List.mem_of_getElem? hl)) _)

/-- The state-word space after a write: the addressed location holds the word, every other one is as before (R94). -/
theorem writeStateWord_stateWord? (s : State) (sel sel' : StateWord) (lane j : Nat) (v : Word) :
    (s.writeStateWord sel lane v).stateWord? sel' j =
      if j = lane ∧ sel' = sel then (s.stateWord? sel' j).map (fun _ => Reg.load v) else s.stateWord? sel' j := by
  simp only [State.stateWord?, writeStateWord_lanes, List.getElem?_modify]
  cases s.lanes[j]? with
  | none => simp
  | some l =>
    by_cases hj : lane = j
    · subst hj
      cases sel <;> cases sel' <;> simp [Lane.loadWord, Lane.word]
    · simp [hj, Ne.symm hj]

/-- A half of the sub-seed words is one expansion: the first from the seed (42_combined_seeding.md R110). -/
theorem seed8_take (v : Word) : (seed8 v).take halfSubseeds = expand v halfSubseeds := by
  simp [seed8, expand_length]

/-- A half of the sub-seed words is one expansion: the second from the third word of the first (R110). -/
theorem seed8_drop (v : Word) : (seed8 v).drop halfSubseeds = expand (reseedWord v) halfSubseeds := by
  simp [seed8, expand_length]

/-- The sub-seed words make four lanes (R113). -/
@[simp] theorem seedLanes_seed8_length (v : Word) : (seedLanes (seed8 v)).length = 4 := by
  simp [seedLanes, seed8_length, halfSubseeds]

end Sys2Proof.Machine
end

