-- ==== Sys2Proof/Laws/Exec.lean ====
section
/-!
SUPPORT. What each command can answer, said once: one equation or inversion lemma per meaning, per port operation and for
the step.
-/
namespace Sys2Proof.Machine

@[simp] theorem exec_smSeed (v : Word) (s : State) : exec (.smSeed v) s = .next { s with z := Reg.load v } := rfl

/-- `SM.NEXT` always answers a next state, and this is it. -/
theorem exec_smNext (s : State) :
    exec .smNext s = .next { s with
      z := { value := smStep (s.z.read s.draws), written := s.z.written }
      rq := s.rq ++ [smuBeat s.laneCount (smStep (s.z.read s.draws))]
      draws := s.drawsAfter s.z.written 1 } := rfl

/-- `XO.LOAD` of a lane that is present answers a next state. -/
theorem exec_xoLoad_present {s : State} {lane : Fin 4} (h : lane.val < s.laneCount) (sel : StateWord) (v : Word) :
    exec (.xoLoad sel lane v) s = .next (s.writeStateWord sel lane.val v) := by
  simp [exec, execXoLoad, h]

/-- `XO.LOAD` of a lane that is absent is refused as a reserved word. -/
theorem exec_xoLoad_absent {s : State} {lane : Fin 4} (h : ¬ lane.val < s.laneCount) (sel : StateWord) (v : Word) :
    exec (.xoLoad sel lane v) s = .refused (.reserved .laneAbsent) := by
  simp [exec, execXoLoad, h]

/-- If `XO.LOAD` answers a next state, the lane is present and this is the state. -/
theorem exec_xoLoad_next {s t : State} {sel : StateWord} {lane : Fin 4} {v : Word}
    (h : exec (.xoLoad sel lane v) s = .next t) : lane.val < s.laneCount ∧ t = s.writeStateWord sel lane.val v := by
  by_cases hl : lane.val < s.laneCount
  · rw [exec_xoLoad_present hl] at h
    exact ⟨hl, (Host.Outcome.next.inj h).symm⟩
  · rw [exec_xoLoad_absent hl] at h
    cases h

/-- `XO.ADV` always answers a next state, and this is it. -/
theorem exec_xoAdv (s : State) :
    exec .xoAdv s = .next { s with
      lanes := s.lanesAdvanced
      rq := s.rq ++ [{ unit := .xru, fields := s.laneOutputs }]
      draws := s.drawsAfter s.lanesWritten (2 * s.laneCount) } := rfl

/-- `XO.SEED` always answers a next state, and this is it. -/
theorem exec_xoSeed (v : Word) (s : State) :
    exec (.xoSeed v) s = .next { s with
      z := Reg.load ((seed8 v)[7]'(by rw [seed8_length]; decide))
      lanes := (seedLanes (seed8 v)).take s.laneCount } := rfl

/-- A command that is legal on this block answers a next state (30_encoding.md R69, 70_reset_and_hazards.md R152). -/
theorem exec_wellFormed_next (i : Instr) (s : State) (h : i.wellFormed s.laneCount = true) : ∃ t, exec i s = .next t := by
  cases i with
  | smSeed v => exact ⟨_, rfl⟩
  | smNext => exact ⟨_, rfl⟩
  | xoLoad sel lane v => exact ⟨_, exec_xoLoad_present (by simpa [Instr.wellFormed] using h) sel v⟩
  | xoAdv => exact ⟨_, rfl⟩
  | xoSeed v => exact ⟨_, rfl⟩

/-- The decoder answers only commands that are legal on the block. -/
theorem decode_wellFormed {lanes : Nat} {c : BitVec 8} {v : Word} {i : Instr} (h : decode lanes c v = .ok i) :
    i.wellFormed lanes = true := by
  simp only [decode] at h
  split at h
  · cases h; rfl
  split at h
  · cases h; rfl
  split at h
  · rename_i hl
    cases h
    simpa [Instr.wellFormed] using hl.2
  split at h
  · cases h; rfl
  split at h
  · cases h; rfl
  · cases h

/-- What an accepted command can answer: the next state of a legal command, or the refusal of a reserved word. -/
theorem accept_cases (c : Command) (s : State) :
    (∃ i t, decode s.laneCount c.word c.operand = .ok i ∧ exec i s = .next t ∧ accept c s = .next t) ∨
    (∃ w, decode s.laneCount c.word c.operand = .error w ∧ accept c s = .refused (.reserved w)) := by
  unfold accept
  cases hd : decode s.laneCount c.word c.operand with
  | ok i =>
    obtain ⟨t, ht⟩ := exec_wellFormed_next i s (decode_wellFormed hd)
    exact .inl ⟨i, t, rfl, ht, ht⟩
  | error w => exact .inr ⟨w, rfl, rfl⟩

/-- What a step can do when it answers a next state: idle, reset, or an edge without a command, or with one that is legal. -/
theorem step_next {s t : State} (h : step s = .next t) :
    (s.inputs = [] ∧ t = s) ∨
    (∃ e rest, s.inputs = e :: rest ∧ e.rst = true ∧ t = State.applyReset { s with inputs := rest }) ∨
    (∃ e rest u, s.inputs = e :: rest ∧ e.rst = false ∧
      u = (if e.resReady then State.takeBeat { s with inputs := rest } else { s with inputs := rest }) ∧
      ((e.command = none ∧ t = u) ∨
       ∃ c i, e.command = some c ∧ decode u.laneCount c.word c.operand = .ok i ∧ exec i u = .next t)) := by
  unfold step at h
  split at h
  · rename_i hi
    exact .inl ⟨hi, (Host.Outcome.next.inj h).symm⟩
  · rename_i e rest hi
    unfold edge at h
    by_cases hr : e.rst = true
    · rw [if_pos hr] at h
      exact .inr (.inl ⟨e, rest, hi, hr, (Host.Outcome.next.inj h).symm⟩)
    · rw [if_neg hr] at h
      refine .inr (.inr ⟨e, rest, _, hi, by simpa using hr, rfl, ?_⟩)
      unfold offer at h
      split at h
      · rename_i hc
        exact .inl ⟨hc, (Host.Outcome.next.inj h).symm⟩
      · rename_i c hc
        rcases accept_cases c (if e.resReady then State.takeBeat { s with inputs := rest } else { s with inputs := rest }) with
          ⟨i, t', hd, he, ha⟩ | ⟨w, hd, ha⟩
        · rw [ha] at h
          cases h
          exact .inr ⟨c, i, hc, hd, he⟩
        · rw [ha] at h
          cases h

@[simp] theorem execAll_nil (s : State) : execAll [] s = .next s := rfl

/-- A sequence goes on from the next state of its first command (20_memory.md R45). -/
theorem execAll_cons_next {i : Instr} {s t : State} (h : exec i s = .next t) (is : List Instr) :
    execAll (i :: is) s = execAll is t := by
  simp [execAll, h]

/-- Steps go on from the next state of the first one. -/
theorem steps_succ_next {s t : State} (h : step s = .next t) (k : Nat) : steps (k + 1) s = steps k t := by
  simp [steps, h]

/-- If some steps answer a next state, so did the first one. -/
theorem steps_succ_cases {s u : State} {k : Nat} (h : steps (k + 1) s = .next u) :
    ∃ t, step s = .next t ∧ steps k t = .next u := by
  simp only [steps] at h
  cases hs : step s with
  | next t => rw [hs] at h; exact ⟨t, rfl, h⟩
  | fault r => rw [hs] at h; cases h
  | refused r => rw [hs] at h; cases h

/-- What a good run says of its first command: it decodes, reads written registers only, and the rest is a good run from its next state. -/
theorem goodRun_cons {c : Command} {cs : List Command} {s : State} (h : goodRun (c :: cs) s = true) :
    ∃ i t, decode s.laneCount c.word c.operand = .ok i ∧ wellDefined s i = true ∧ exec i s = .next t ∧ goodRun cs t = true := by
  unfold goodRun at h
  cases hd : decode s.laneCount c.word c.operand with
  | error w => rw [hd] at h; cases h
  | ok i =>
    rw [hd] at h
    obtain ⟨t, ht⟩ := exec_wellFormed_next i s (decode_wellFormed hd)
    simp only [ht, Bool.and_eq_true] at h
    exact ⟨i, t, rfl, h.1, ht, h.2⟩

/-- A sequence in two parts: the second starts where the first ended. -/
theorem execAll_append_next {is js : List Instr} {s t : State} (h : execAll is s = .next t) :
    execAll (is ++ js) s = execAll js t := by
  induction is generalizing s with
  | nil => cases h; rfl
  | cons i is ih =>
    simp only [List.cons_append, execAll] at h ⊢
    cases hi : exec i s with
    | next u => rw [hi] at h; exact ih h
    | fault r => rw [hi] at h; cases h
    | refused r => rw [hi] at h; cases h

end Sys2Proof.Machine
end

