-- ==== Sys2Proof/Laws/PerInstr.lean ====
section
/-!
SUPPORT. Per-instruction laws. Family `TableRow`: the command word the encoder writes selects the command's own row of the
opcode table, `(word & mask) = match` (30_encoding.md R59).
-/
namespace Sys2Proof.Laws.TableRow

/-- The column `mask` of the command's row of spec/opcode_table.json. -/
def mask : Instr → BitVec 8
  | .smSeed _ => 0xFF#8
  | .smNext => 0xFF#8
  | .xoLoad _ _ _ => 0xF8#8
  | .xoAdv => 0xFF#8
  | .xoSeed _ => 0xFF#8

/-- The column `match` of the command's row of spec/opcode_table.json. -/
def pattern : Instr → BitVec 8
  | .smSeed _ => 0x10#8
  | .smNext => 0x20#8
  | .xoLoad _ _ _ => 0x40#8
  | .xoAdv => 0x50#8
  | .xoSeed _ => 0x60#8

/-- The encoded word matches the command's row. -/
def Statement (i : Instr) : Prop := (encode i).word &&& mask i = pattern i

theorem smSeed (v : Word) : Statement (.smSeed v) := by
  show 0x10#8 &&& 0xFF#8 = 0x10#8
  decide

theorem smNext : Statement .smNext := by
  show 0x20#8 &&& 0xFF#8 = 0x20#8
  decide

theorem xoLoad (sel : StateWord) (lane : Fin 4) (v : Word) : Statement (.xoLoad sel lane v) := by
  have h : ∀ (sel : StateWord) (lane : Fin 4), BitVec.ofNat 8 (0x40 + 4 * sel.sel + lane.val) &&& 0xF8#8 = 0x40#8 := by
    intro sel
    cases sel <;> decide
  show BitVec.ofNat 8 (0x40 + 4 * sel.sel + lane.val) &&& 0xF8#8 = 0x40#8
  exact h sel lane

theorem xoAdv : Statement .xoAdv := by
  show 0x50#8 &&& 0xFF#8 = 0x50#8
  decide

theorem xoSeed (v : Word) : Statement (.xoSeed v) := by
  show 0x60#8 &&& 0xFF#8 = 0x60#8
  decide

end Sys2Proof.Laws.TableRow
end

