-- ==== Sys2Proof/Tests/Slice0.lean ====
section
/-!
SUPPORT. The model's own tests, on values of spec/95_test_vectors.md and of the rules' examples, and the witnesses that the
statements' hypotheses can be met.
-/
namespace Sys2Proof.Tests
open Sys2Proof.Machine

/-! ### Well-formedness: one ill-formed term for the one check -/

theorem test_wellFormed_refuses_absent_lane : Instr.wellFormed 1 (.xoLoad .s0 1 5#64) = false := by decide
theorem test_wellFormed_refuses_lane_three_of_three : Instr.wellFormed 3 (.xoLoad .s1 3 5#64) = false := by decide
theorem test_wellFormed_admits_last_lane : Instr.wellFormed 4 (.xoLoad .s1 3 5#64) = true := by decide

/-! ### Decoding: the words of R59 written out bit by bit (op, rsv, sel, lane), and the table of 95_test_vectors.md 2.1 -/

theorem test_decode_smSeed : decode 4 0b0001_0_0_00#8 7#64 = .ok (.smSeed 7#64) := by decide
theorem test_decode_smNext : decode 4 0b0010_0_0_00#8 7#64 = .ok .smNext := by decide
theorem test_decode_xoLoad_s0 : decode 4 0b0100_0_0_01#8 7#64 = .ok (.xoLoad .s0 1 7#64) := by decide
theorem test_decode_xoLoad_s1 : decode 4 0b0100_0_1_10#8 7#64 = .ok (.xoLoad .s1 2 7#64) := by decide
theorem test_decode_xoAdv : decode 4 0b0101_0_0_00#8 7#64 = .ok .xoAdv := by decide
theorem test_decode_xoSeed : decode 4 0b0110_0_0_00#8 7#64 = .ok (.xoSeed 7#64) := by decide

/-- Section 2.1 of 95_test_vectors.md, column `LANES = 4`: the reserved words. -/
theorem test_reserved_words_of_four_lanes :
    ∀ c ∈ [0x00#8, 0x11#8, 0x14#8, 0x18#8, 0x1F#8, 0x21#8, 0x28#8, 0x30#8, 0x48#8, 0x4C#8, 0x4F#8, 0x51#8, 0x54#8, 0x58#8,
      0x61#8, 0x68#8, 0x70#8, 0x80#8, 0x90#8, 0xA0#8, 0xF0#8, 0xFF#8],
      (decode 4 c 0#64).toOption = none := by decide

/-- Section 2.1 of 95_test_vectors.md, column `LANES = 1`: the loads of absent lanes, and the two that are present. -/
theorem test_loads_of_one_lane :
    (∀ c ∈ [0x41#8, 0x43#8, 0x46#8, 0x47#8], decode 1 c 0#64 = .error .laneAbsent) ∧
    decode 1 0x40#8 0#64 = .ok (.xoLoad .s0 0 0#64) ∧ decode 1 0x44#8 0#64 = .ok (.xoLoad .s1 0 0#64) := by decide

/-- The operand follows the command word from bit 8 on; with 8 bits it is zero. -/
theorem test_table_word : decodeTableWord 8 0x47 = some (.xoLoad .s1 3 0#64) ∧
    decodeTableWord 72 (0x10 + 0x100 * 0x0123456789ABCDEF) = some (.smSeed 0x0123456789ABCDEF#64) := by decide

/-! ### Small states and what to look at -/

/-- A lane with both words written. -/
def lane (a b : Word) : Lane := { s0 := Reg.load a, s1 := Reg.load b }

/-- A block with these lanes and `Z` written. -/
def block (z : Word) (lanes : List Lane) : State := { State.resetFor 1 with z := Reg.load z, lanes := lanes }

/-- The next state, if there is one. -/
def nextOf : Host.Outcome State Fault Refusal → Option State
  | .next s => some s
  | .fault _ => none
  | .refused _ => none

/-- The beats after a command. -/
def beatsOf (o : Host.Outcome State Fault Refusal) : Option (List Beat) := (nextOf o).map State.rq

/-- The lanes after a command. -/
def lanesOf (o : Host.Outcome State Fault Refusal) : Option (List Lane) := (nextOf o).map State.lanes

/-- `Z` after a command. -/
def zOf (o : Host.Outcome State Fault Refusal) : Option Reg := (nextOf o).map State.z

/-- One lane in the state `(1, 2)` of V-XO-1, `Z` at zero. -/
def oneLane : State := block 0#64 [lane 1#64 2#64]

/-- The four lanes of V-XO-11, `Z` at `2^64 - G` (V-SM-1, fifth row). -/
def fourLanes : State :=
  block 0x61C8864680B583EB#64
    [lane 1#64 2#64, lane 0#64 0#64, lane 1#64 0xFFFFFFFFFFFFFFFF#64, lane 0x0123456789ABCDEF#64 0xFEDCBA9876543210#64]

/-! ### The commands -/

/-- R79's example. -/
theorem test_smSeed_example : zOf (exec (.smSeed 0x0123456789ABCDEF#64) oneLane) = some (Reg.load 0x0123456789ABCDEF#64) := by
  decide

/-- The golden vector (R86, V-SM-1 first row): the beat carries the new `Z`. -/
theorem test_smNext_golden : beatsOf (exec .smNext oneLane) =
    some [{ unit := .smu, fields := [0xE220A8397B1DCDAF#64] }] := by decide

/-- V-SM-1 fifth row, on four lanes: a zero word, and zeros in fields 1 to 3 (R49). -/
theorem test_smNext_zero_word : beatsOf (exec .smNext fourLanes) =
    some [{ unit := .smu, fields := [0#64, 0#64, 0#64, 0#64] }] := by decide

/-- V-SM-2, second and third word: the mixed word is fed back (90_conflicts.md C2). -/
theorem test_expand_carries_accumulator :
    expand 0#64 3 = [0xE220A8397B1DCDAF#64, 0xA706DD2F4D197E6F#64, 0x238275BC38FCBE91#64] := by decide

/-- R94's example: `S1[2]`, and lane 3 beside it untouched. -/
theorem test_xoLoad_example :
    ((nextOf (exec (.xoLoad .s1 2 0xFEDCBA9876543210#64) fourLanes)).bind (fun t => t.stateWord? .s1 2)) =
      some (Reg.load 0xFEDCBA9876543210#64) ∧
    ((nextOf (exec (.xoLoad .s1 2 0xFEDCBA9876543210#64) fourLanes)).bind (fun t => t.stateWord? .s1 3)) =
      some (Reg.load 0xFEDCBA9876543210#64) ∧
    ((nextOf (exec (.xoLoad .s1 2 0xFEDCBA9876543210#64) fourLanes)).bind (fun t => t.stateWord? .s0 2)) =
      some (Reg.load 1#64) := by decide

/-- V-XO-15: loading one word of a lane after reset leaves the other unwritten. -/
theorem test_xoLoad_partial : lanesOf (exec (.xoLoad .s0 0 1#64) (State.resetFor 1)) =
    some [{ s0 := Reg.load 1#64, s1 := Reg.unwritten }] := by decide

/-- V-XO-11, first advance: the four outputs, lane 0 in field 0. -/
theorem test_xoAdv_outputs : beatsOf (exec .xoAdv fourLanes) =
    some [{ unit := .xru, fields := [3#64, 0#64, 0#64, 0xFFFFFFFFFFFFFFFF#64] }] := by decide

/-- V-XO-11, the lanes after the first advance. -/
theorem test_xoAdv_lanes : lanesOf (exec .xoAdv fourLanes) =
    some [lane 0x008000000000C003#64 0x0000003000000000#64, lane 0#64 0#64,
      lane 0x0080000000007FFE#64 0xFFFFFFEFFFFFFFFF#64, lane 0xF78091A2B3C4EA19#64 0xFFFFFFFFFFFFFFFF#64] := by decide

/-- V-SD-3: the lanes after `xo.seed 0` with `LANES = 4`. -/
theorem test_xoSeed_lanes : lanesOf (exec (.xoSeed 0#64) State.reset) =
    some [lane 0xE220A8397B1DCDAF#64 0x2130748AAAC80268#64, lane 0xA706DD2F4D197E6F#64 0x78AE5A9A6B5FD45E#64,
      lane 0x238275BC38FCBE91#64 0xCBD37AD29B93B094#64, lane 0x2130748AAAC80268#64 0x09BB71FB54596258#64] := by decide

/-- V-SD-4: with `LANES = 1` one lane is loaded and `Z` is still the last of the eight words. -/
theorem test_xoSeed_one_lane : lanesOf (exec (.xoSeed 0#64) oneLane) = some [lane 0xE220A8397B1DCDAF#64 0x2130748AAAC80268#64] ∧
    zOf (exec (.xoSeed 0#64) oneLane) = some (Reg.load 0x09BB71FB54596258#64) := by decide

/-! ### Pure functions -/

/-- R91's examples. -/
theorem test_rotl_examples : rotl 0x8000000000000001#64 55 = 0x00C0000000000000#64 ∧
    rotl 0x0123456789ABCDEF#64 36 = 0x9ABCDEF012345678#64 ∧ rotl 0xFF80000000000000#64 9 = 0x1FF#64 := by decide

/-- R82's examples: the right shift is logical. -/
theorem test_xorShift_examples : xorShift 0xFFFFFFFFFFFFFFFF#64 30 = 0xFFFFFFFC00000000#64 ∧
    xorShift 0x8000000000000000#64 27 = 0x8000001000000000#64 := by decide

/-! ### The ports -/

/-- V-XO-11: `res_data` of the first beat, lane 3 most significant. -/
theorem test_resData : packFields [3#64, 0#64, 0#64, 0xFFFFFFFFFFFFFFFF#64] =
    0xFFFFFFFFFFFFFFFF000000000000000000000000000000000000000000000003 := by decide

/-- P7: `sm.next` straight after reset runs (on a free value, entry 1), and `Z` stays unwritten. -/
theorem test_first_step_smNext : (zOf (step (State.reset.withFetchWord 8 0x20))).map Reg.written = some false := by decide

/-- P7: the word `0x48` is refused by its class. -/
theorem test_reserved_word_is_refused :
    (match step (State.reset.withFetchWord 8 0x48) with
      | .next _ => none
      | .fault _ => none
      | .refused r => some r) = some (.reserved .rsvSet) := by decide

/-- R123: an edge with `rst = 1` takes no beat and accepts no command. -/
theorem test_reset_overrides :
    (nextOf (step { oneLane with
      rq := [{ unit := .smu, fields := [5#64] }]
      inputs := [{ rst := true, command := some ⟨0x10#8, 9#64⟩, resReady := true }] })).map
        (fun t => (t.z.written, t.rq, t.taken)) = some (false, [], []) := by decide

/-! ### Witnesses: states and operands that meet a statement's hypotheses, at the values where its clauses meet -/

/-- The edge at which a command is accepted and the host takes a beat. -/
def busyEdge (c : BitVec 8) : Edge := { rst := false, command := some ⟨c, 0#64⟩, resReady := true }

/-- One lane with a beat waiting and one edge to come. -/
def waiting (e : Edge) : State := { oneLane with rq := [{ unit := .smu, fields := [5#64] }], inputs := [e] }

theorem witness_OperandIsUsedWholeOrIgnored :
    decode 4 0x60#8 1#64 = .ok (.xoSeed 1#64) ∧ decode 4 0x61#8 1#64 = .error .nonzeroLowNibble ∧
    (0x20#8 = 0x20#8 ∨ 0x20#8 = 0x50#8) ∧ (0x50#8 = 0x20#8 ∨ 0x50#8 = 0x50#8) := by decide

theorem witness_DecodeOfEncodeIsIdentity : Instr.wellFormed 3 (.xoLoad .s1 2 9#64) = true := by decide

theorem witness_EncodeOfDecodeIsIdentity : decode 3 0x46#8 9#64 = .ok (.xoLoad .s1 2 9#64) ∧
    Instr.xoLoad .s1 2 9#64 ≠ .smNext ∧ Instr.xoLoad .s1 2 9#64 ≠ .xoAdv := by decide

theorem witness_LegalWordCount : 1 ∈ [1, 2, 3, 4] ∧ 4 ∈ [1, 2, 3, 4] := by decide

/-- The two clauses of R75 meet at `i + k = 63` and `i + k = 64`. -/
theorem witness_XorShiftBitByBit :
    (1 ≤ 30 ∧ 30 ≤ 63 ∧ 33 < 64 ∧ 33 + 30 ≤ 63) ∧ (1 ≤ 63 ∧ 63 ≤ 63 ∧ 1 < 64 ∧ ¬ 1 + 63 ≤ 63) := by decide

theorem witness_ExpansionIsTheChain : 0 < 1 ∧ 2 < 3 ∧ 0 ≤ 3 ∧ 3 ≤ 3 := by decide

theorem witness_NextStepsAccumulatorAndEmits : fourLanes.z.written = true := by decide

theorem witness_NextOnUnwrittenDrawsFreely : State.reset.z.written = false := by decide

theorem witness_CommandsRealiseExpansion :
    ∀ i ∈ [Instr.smNext, .xoAdv, .xoLoad .s1 3 0#64, .smNext],
      i = .smNext ∨ i = .xoAdv ∨ ∃ sel lane v, i = .xoLoad sel lane v ∧ lane.val < fourLanes.laneCount := by
  intro i hi
  simp only [List.mem_cons, List.not_mem_nil, or_false] at hi
  rcases hi with rfl | rfl | rfl | rfl
  · exact .inl rfl
  · exact .inr (.inl rfl)
  · exact .inr (.inr ⟨_, _, _, rfl, by decide⟩)
  · exact .inl rfl

theorem witness_NextDependsOnAccumulatorOnly :
    oneLane.z = (block 0#64 [lane 7#64 7#64, lane 8#64 8#64]).z ∧ oneLane.z.written = true := by decide

/-- Composition at a sum below, at and above 64 less the excluded 64 itself. -/
theorem witness_RotationLaws :
    (1 ≤ 55 ∧ 55 ≤ 63 ∧ 0 < 64 ∧ 63 < 64) ∧ (1 ≤ 55 ∧ 55 ≤ 63 ∧ 1 ≤ 8 ∧ 8 ≤ 63 ∧ (55 + 8) % 64 ≠ 0) ∧
    (1 ≤ 55 ∧ 55 ≤ 63 ∧ 1 ≤ 36 ∧ 36 ≤ 63 ∧ (55 + 36) % 64 ≠ 0) := by decide

/-- The clauses of R94 meet at `lane = LANES - 1` and `lane = LANES`. -/
theorem witness_LoadWritesOneStateWord :
    (0 : Fin 4).val < oneLane.laneCount ∧ oneLane.laneCount ≤ (1 : Fin 4).val ∧ (3 : Fin 4).val < fourLanes.laneCount := by decide

theorem witness_AdvanceStepsEveryLaneAndEmits :
    ∀ l ∈ fourLanes.lanes, l.s0.written = true ∧ l.s1.written = true := by decide

/-- A block with a written lane beside one that lacks a word. -/
theorem witness_WrittenLanesUnaffectedByUnwritten :
    (block 0#64 [lane 1#64 2#64, { s0 := Reg.load 1#64, s1 := Reg.unwritten }]).lanes[0]? = some (lane 1#64 2#64) ∧
    (block 0#64 [lane 1#64 2#64, { s0 := Reg.load 1#64, s1 := Reg.unwritten }]).lanes[1]? =
      some { s0 := Reg.load 1#64, s1 := Reg.unwritten } ∧
    (lane 1#64 2#64).s0.written = true ∧ (lane 1#64 2#64).s1.written = true ∧ Reg.unwritten.written = false := by decide

theorem witness_DegenerateLaneIsFixed :
    fourLanes.lanes[1]? = some { s0 := { value := 0#64, written := true }, s1 := { value := 0#64, written := true } } := by
  decide

theorem witness_LanesRunIndependently :
    fourLanes.lanes[3]? = some (lane 0x0123456789ABCDEF#64 0xFEDCBA9876543210#64) ∧
    (lane 0x0123456789ABCDEF#64 0xFEDCBA9876543210#64).s0.written = true ∧
    (lane 0x0123456789ABCDEF#64 0xFEDCBA9876543210#64).s1.written = true := by decide

theorem witness_UnitsDoNotDisturbEachOther :
    goodCommand fourLanes .smNext = true ∧ goodCommand fourLanes .xoAdv = true ∧
    goodCommand fourLanes (.smSeed 1#64) = true ∧ goodCommand fourLanes (.xoLoad .s0 3 1#64) = true := by decide

theorem witness_SeedLoadsWholeGenerator : fourLanes.laneCount ≤ 4 ∧ 0 < fourLanes.laneCount ∧ 3 < fourLanes.laneCount := by decide

theorem witness_SeededLaneSameForEveryLaneCount :
    oneLane.laneCount ≤ 4 ∧ fourLanes.laneCount ≤ 4 ∧ 0 < oneLane.laneCount ∧ 0 < fourLanes.laneCount := by decide

theorem witness_SeedEqualsHostSequence :
    (1 ≤ oneLane.laneCount ∧ oneLane.laneCount ≤ 4) ∧ (1 ≤ fourLanes.laneCount ∧ fourLanes.laneCount ≤ 4) := by decide

/-- The hypothesis `exec i s = next t` with `LANES <= 4`, for every command. -/
theorem witness_FrameOfEveryCommand : fourLanes.laneCount ≤ 4 ∧
    ∀ i ∈ [Instr.smSeed 1#64, .smNext, .xoLoad .s1 3 1#64, .xoAdv, .xoSeed 1#64], (nextOf (exec i fourLanes)).isSome = true := by
  decide

/-- The same from a state with every register unwritten, lane 3 read before and after. -/
theorem witness_WrittenMarksMoveAsStated :
    (∀ i ∈ [Instr.smSeed 1#64, .smNext, .xoLoad .s1 3 1#64, .xoAdv, .xoSeed 1#64],
      (nextOf (exec i State.reset)).isSome = true) ∧
    State.reset.lanes[3]? = some Lane.unwritten ∧
    (lanesOf (exec (.xoLoad .s1 3 1#64) State.reset)).bind (fun ls => ls[3]?) =
      some { s0 := Reg.unwritten, s1 := Reg.load 1#64 } := by decide

theorem witness_LegalCommandsComplete : Instr.wellFormed State.reset.laneCount (.xoLoad .s0 3 1#64) = true ∧
    Instr.wellFormed State.reset.laneCount .xoAdv = true := by decide

theorem witness_InitialisationMakesReadsDefined :
    State.reset.laneCount ≤ 4 ∧ [1#64, 2#64, 3#64, 4#64].length = State.reset.laneCount := by decide

theorem witness_OnlyLoadsCanDegenerate : oneLane.nonDegenerate = true ∧ (∀ sel lane v, Instr.xoAdv ≠ .xoLoad sel lane v) ∧
    (nextOf (exec .xoAdv oneLane)).isSome = true := by
  refine ⟨by decide, fun _ _ _ h => ?_, by decide⟩
  cases h

theorem witness_UnwrittenContentIsUnobservable : (nextOf (exec .xoAdv State.reset)).isSome = true := by decide

theorem witness_ResetMeetsInvariant : 1 ≤ 1 ∧ 4 ≤ 4 := by decide

/-- An invariant state with a beat in the queue, from which a step with a command answers a next state. -/
theorem witness_StepKeepsInvariant :
    (waiting (busyEdge 0x20#8)).Wf ∧ (nextOf (step (waiting (busyEdge 0x20#8)))).isSome = true := by decide

theorem witness_LaneCountNeverChanges :
    (waiting { rst := true, command := none, resReady := false }).Wf ∧
    (nextOf (step (waiting { rst := true, command := none, resReady := false }))).isSome = true := by decide

theorem witness_StepRunsDecodedCommand :
    (waiting (busyEdge 0x20#8)).inputs = [busyEdge 0x20#8] ∧ (busyEdge 0x20#8).rst = false ∧
    (busyEdge 0x20#8).command = some ⟨0x20#8, 0#64⟩ ∧
    decode (waiting (busyEdge 0x20#8)).laneCount 0x20#8 0#64 = .ok .smNext := by decide

theorem witness_OnlyReservedWordsStopTheBlock :
    (waiting (busyEdge 0x00#8)).inputs = [busyEdge 0x00#8] ∧ (busyEdge 0x00#8).rst = false ∧
    (busyEdge 0x00#8).command = some ⟨0x00#8, 0#64⟩ ∧
    decode (waiting (busyEdge 0x00#8)).laneCount 0x00#8 0#64 = .error .unassignedOp := by decide

theorem witness_ResetOverridesEverything :
    (waiting { rst := true, command := some ⟨0x50#8, 0#64⟩, resReady := true }).inputs =
      [{ rst := true, command := some ⟨0x50#8, 0#64⟩, resReady := true }] := by decide

theorem witness_HandshakesWithoutCommand :
    oneLane.inputs = [] ∧
    (waiting { rst := false, command := none, resReady := false }).inputs = [{ rst := false, command := none, resReady := false }] ∧
    (waiting { rst := false, command := none, resReady := true }).inputs = [{ rst := false, command := none, resReady := true }] ∧
    (waiting { rst := false, command := none, resReady := true }).rq = [{ unit := .smu, fields := [5#64] }] ∧
    ({ oneLane with inputs := [{ rst := false, command := none, resReady := true }] } : State).rq = [] := by decide

/-- A command that emits, one that does not, and no command. -/
theorem witness_BeatsLeaveInCommandOrder :
    ∀ e ∈ [busyEdge 0x50#8, busyEdge 0x40#8, { rst := false, command := none, resReady := false }],
      (waiting e).inputs = [e] ∧ e.rst = false ∧ (nextOf (step (waiting e))).isSome = true := by decide

/-- The hypotheses of each clause: a beat taken while one is appended, a beat held, an empty queue with the host ready, and reset. -/
theorem witness_ResultChannelPresentsFrontBeat :
    ((waiting (busyEdge 0x20#8)).inputs = [busyEdge 0x20#8] ∧ (waiting (busyEdge 0x20#8)).resValid false = true ∧
      (waiting (busyEdge 0x20#8)).front? = some { unit := .smu, fields := [5#64] } ∧
      (nextOf (step (waiting (busyEdge 0x20#8)))).isSome = true) ∧
    ((waiting (Edge.ofCommand ⟨0x20#8, 0#64⟩)).resValid false = true ∧ (Edge.ofCommand ⟨0x20#8, 0#64⟩).resReady = false ∧
      (nextOf (step (waiting (Edge.ofCommand ⟨0x20#8, 0#64⟩)))).isSome = true) ∧
    (({ oneLane with inputs := [busyEdge 0x20#8] } : State).resValid false = false ∧
      (nextOf (step { oneLane with inputs := [busyEdge 0x20#8] })).isSome = true) ∧
    ((waiting { rst := true, command := none, resReady := true }).resValid true = false ∧
      (nextOf (step (waiting { rst := true, command := none, resReady := true }))).isSome = true) := by decide

/-- Two beats with one tag on the wire. -/
theorem witness_UnitTagTellsTheCommand :
    ({ unit := .xru, fields := [1#64] } : Beat).unit.bit = ({ unit := .xru, fields := [2#64] } : Beat).unit.bit := by decide

theorem witness_ResultDataLayout : 0 < [3#64, 4#64].length ∧ 1 < [3#64, 4#64].length ∧ 1 ≤ 1 := by decide

theorem witness_LegalRunsComplete : (waiting (busyEdge 0x50#8)).Wf ∧
    ∀ e ∈ (waiting (busyEdge 0x50#8)).inputs, e.rst = false → ∀ c, e.command = some c →
      ∃ i, decode (waiting (busyEdge 0x50#8)).laneCount c.word c.operand = .ok i := by
  refine ⟨by decide, fun e he _ c hc => ?_⟩
  cases List.mem_singleton.1 he
  cases hc
  exact ⟨.xoAdv, by decide⟩

/-- Two one-lane blocks whose unwritten registers store different words and would draw different values, the same two good commands,
spaced and taken differently. -/
theorem witness_GoodRunsAgreeOnEveryBlock :
    let s : State := State.resetFor 1
    let s' : State := { State.resetFor 1 with z := { value := 7#64, written := false }, draws := 9 }
    let es : List Edge := [busyEdge 0x10#8, busyEdge 0x20#8]
    let fs : List Edge :=
      [Edge.ofCommand ⟨0x10#8, 0#64⟩, { rst := false, command := none, resReady := true }, Edge.ofCommand ⟨0x20#8, 0#64⟩]
    s ≠ s' ∧ (∀ e ∈ es, e.rst = false) ∧ (∀ e ∈ fs, e.rst = false) ∧ es.filterMap Edge.command = fs.filterMap Edge.command ∧
    s.z.masked = s'.z.masked ∧ s.lanes.map Lane.masked = s'.lanes.map Lane.masked ∧ s.observable = s'.observable ∧
    goodRun (es.filterMap Edge.command) s = true := by decide

/-- Two ways to bring the same command: with the host ready, and after an edge without a command. -/
theorem witness_ObservableIndependentOfHandshakes :
    (∀ e ∈ [busyEdge 0x20#8], e.rst = false) ∧
    (∀ e ∈ [{ rst := false, command := none, resReady := false }, Edge.ofCommand ⟨0x20#8, 0#64⟩], e.rst = false) ∧
    [busyEdge 0x20#8].filterMap Edge.command =
      [{ rst := false, command := none, resReady := false }, Edge.ofCommand ⟨0x20#8, 0#64⟩].filterMap Edge.command ∧
    (nextOf (steps 1 { oneLane with inputs := [busyEdge 0x20#8] })).isSome = true ∧
    (nextOf (steps 2 { oneLane with
      inputs := [{ rst := false, command := none, resReady := false }, Edge.ofCommand ⟨0x20#8, 0#64⟩] })).isSome = true := by
  decide

end Sys2Proof.Tests
end

section
/-!
PROOFS. The scope of the block (00_scope.md): `LANES` and the layout of the beats are kept by every step, and the mixer step
is the integer computation modulo 2^64.
-/
namespace Sys2Proof.Machine

/-! ### The mixer step on integers (R12, R77, R82) -/

section Integers
variable (z : Word)

/-- R75 on integers: the logical right shift is a division by a power of two. -/
theorem xorShift_toNat (k : Nat) : (xorShift z k).toNat = z.toNat ^^^ z.toNat / 2 ^ k := by
  rw [xorShift, BitVec.toNat_xor, BitVec.toNat_ushiftRight, Nat.shiftRight_eq_div_pow]

theorem add_golden_toNat : (z + golden).toNat = (z.toNat + 0x9E3779B97F4A7C15) % 2 ^ 64 := BitVec.toNat_add z golden

theorem mul_multOne_toNat : (z * multOne).toNat = z.toNat * 0xBF58476D1CE4E5B9 % 2 ^ 64 := BitVec.toNat_mul z multOne

theorem mul_multTwo_toNat : (z * multTwo).toNat = z.toNat * 0x94D049BB133111EB % 2 ^ 64 := BitVec.toNat_mul z multTwo
end Integers

/-- Settles O10: each stage of R77 is taken to integers by its own lemma. -/
theorem stepOnUnboundedIntegers : Obligations.StepOnUnboundedIntegers := by
  intro z
  simp only [smStep, mix, xorShift_toNat, mul_multTwo_toNat, mul_multOne_toNat, add_golden_toNat,
    xorShiftOne, xorShiftTwo, xorShiftThree]

/-! ### What every command keeps -/

section Commands
variable {i : Instr} {s t : State}

/-- `XO.SEED` keeps the number of lanes: the sub-seed words make four lanes, and `LANES` is at most 4 (R9, R114). -/
theorem seedLanes_take_length (v : Word) {n : Nat} (hn : n ≤ 4) : ((seedLanes (seed8 v)).take n).length = n := by
  rw [List.length_take, seedLanes_seed8_length, min_eq_left hn]

/-- No command changes `LANES` (R9, R28). -/
theorem exec_laneCount (hs : s.laneCount ≤ 4) (h : exec i s = .next t) : t.laneCount = s.laneCount := by
  cases i with
  | smSeed v => cases h; rfl
  | smNext => rw [exec_smNext] at h; cases h; rfl
  | xoLoad sel lane v =>
    obtain ⟨-, rfl⟩ := exec_xoLoad_next h
    exact writeStateWord_laneCount ..
  | xoAdv => rw [exec_xoAdv] at h; cases h; exact lanesAdvanced_length s
  | xoSeed v => rw [exec_xoSeed] at h; cases h; exact seedLanes_take_length v hs

/-- No command touches the beats the host has taken. -/
theorem exec_taken (h : exec i s = .next t) : t.taken = s.taken := by
  cases i with
  | smSeed v => cases h; rfl
  | smNext => rw [exec_smNext] at h; cases h; rfl
  | xoLoad sel lane v =>
    obtain ⟨-, rfl⟩ := exec_xoLoad_next h
    exact writeStateWord_taken ..
  | xoAdv => rw [exec_xoAdv] at h; cases h; rfl
  | xoSeed v => rw [exec_xoSeed] at h; cases h; rfl

/-- The beats a command appends to `RQ` (10_state.md R27); `exec_rq` ties it to the model. -/
def commandBeats (s : State) : Instr → List Beat
  | .smSeed _ => []
  | .smNext => [smuBeat s.laneCount (smStep (s.z.read s.draws))]
  | .xoLoad _ _ _ => []
  | .xoAdv => [{ unit := .xru, fields := s.laneOutputs }]
  | .xoSeed _ => []

/-- A command changes `RQ` by appending its beats at the back, and in no other way (R27). -/
theorem exec_rq (h : exec i s = .next t) : t.rq = s.rq ++ commandBeats s i := by
  cases i with
  | smSeed v => cases h; exact (List.append_nil _).symm
  | smNext => rw [exec_smNext] at h; cases h; rfl
  | xoLoad sel lane v =>
    obtain ⟨-, rfl⟩ := exec_xoLoad_next h
    exact (List.append_nil _).symm
  | xoAdv => rw [exec_xoAdv] at h; cases h; rfl
  | xoSeed v => rw [exec_xoSeed] at h; cases h; exact (List.append_nil _).symm

/-- A command extends the observable by its own beats. -/
theorem exec_observable (h : exec i s = .next t) : t.observable = s.observable ++ commandBeats s i := by
  rw [State.observable, exec_taken h, exec_rq h, List.append_assoc]
end Commands

/-! ### The layout of the beats (20_memory.md R49) -/

/-- The beat of `SM.NEXT` has `LANES` fields, those above field 0 zero. -/
theorem smuBeat_wf {n : Nat} (hn : 1 ≤ n) (z : Word) : (smuBeat n z).Wf n := by
  refine ⟨?_, fun _ => rfl⟩
  simp only [smuBeat, List.length_cons, List.length_replicate]
  omega

/-- The beat of `XO.ADV` has one field for each lane. -/
theorem laneOutputs_beat_wf (s : State) : ({ unit := .xru, fields := s.laneOutputs } : Beat).Wf s.laneCount :=
  ⟨laneOutputs_length s, fun h => nomatch h⟩

theorem commandBeats_wf {s : State} (hs : 1 ≤ s.laneCount) (i : Instr) : ∀ b ∈ commandBeats s i, b.Wf s.laneCount := by
  cases i with
  | smSeed v => exact List.forall_mem_nil _
  | smNext => exact List.forall_mem_singleton.2 (smuBeat_wf hs _)
  | xoLoad sel lane v => exact List.forall_mem_nil _
  | xoAdv => exact List.forall_mem_singleton.2 (laneOutputs_beat_wf s)
  | xoSeed v => exact List.forall_mem_nil _

/-! ### What a step keeps -/

section Handshake
variable (s : State) (ready : Bool)

theorem takeBeat_if_laneCount : (if ready then s.takeBeat else s).laneCount = s.laneCount := by
  cases ready with
  | false => rfl
  | true => exact takeBeat_laneCount s

/-- The host, ready or not, moves no beat out of the observable (20_memory.md R53). -/
theorem takeBeat_if_observable : (if ready then s.takeBeat else s).observable = s.observable := by
  cases ready with
  | false => rfl
  | true => exact takeBeat_observable s
end Handshake

section Invariant
variable {i : Instr} {s t : State}

/-- A step ends in a reset state with as many lanes, or in a state `u` that differs from `s` in the edges and the place of a beat
only, or in what one command makes of such a `u`. -/
theorem step_next_reset_or_exec (h : step s = .next t) :
    (∃ r : State, r.laneCount = s.laneCount ∧ t = r.applyReset) ∨
    ∃ u : State, u.laneCount = s.laneCount ∧ u.observable = s.observable ∧ (t = u ∨ ∃ i, exec i u = .next t) := by
  obtain ⟨-, rfl⟩ | ⟨e, rest, -, -, rfl⟩ | ⟨e, rest, u, -, -, rfl, hu⟩ := step_next h
  case inl => exact .inr ⟨t, rfl, rfl, .inl rfl⟩
  case inr.inl => exact .inl ⟨{ s with inputs := rest }, rfl, rfl⟩
  case inr.inr =>
    refine .inr ⟨_, takeBeat_if_laneCount { s with inputs := rest } e.resReady,
      takeBeat_if_observable { s with inputs := rest } e.resReady, ?_⟩
    obtain ⟨-, ht⟩ | ⟨c, i, -, -, hexec⟩ := hu
    · exact .inl ht
    · exact .inr ⟨i, hexec⟩

/-- No step changes `LANES`: reset keeps it, and so does every command (R9, R28). -/
theorem step_laneCount (hs : s.laneCount ≤ 4) (h : step s = .next t) : t.laneCount = s.laneCount := by
  obtain ⟨r, hr, rfl⟩ | ⟨u, hl, -, rfl | ⟨i, hexec⟩⟩ := step_next_reset_or_exec h
  · exact (applyReset_laneCount r).trans hr
  · exact hl
  · exact (exec_laneCount (hl.trans_le hs) hexec).trans hl

/-- The invariant speaks of `LANES` and the observable only: it is kept where `LANES` stays and the beats that are new have
the layout. -/
theorem wf_of_observable_append (hs : s.Wf) (hl : t.laneCount = s.laneCount) {new : List Beat}
    (ho : t.observable = s.observable ++ new) (hnew : ∀ b ∈ new, b.Wf s.laneCount) : t.Wf := by
  obtain ⟨hpos, hmax, hbeats⟩ := hs
  refine ⟨hl ▸ hpos, hl ▸ hmax, fun b (hb : b ∈ t.observable) => ?_⟩
  rw [ho] at hb
  rw [hl]
  exact (List.mem_append.1 hb).elim (hbeats b) (hnew b)

/-- A command keeps the invariant: the beats it appends have the layout. -/
theorem exec_wf (hs : s.Wf) (h : exec i s = .next t) : t.Wf := by
  have ⟨hpos, hmax, _⟩ := hs
  exact wf_of_observable_append hs (exec_laneCount hmax h) (exec_observable h) (commandBeats_wf hpos i)

/-- The reset state of every `LANES` the spec admits: it has no beat (R9, R30). -/
theorem resetFor_wf {n : Nat} (hpos : 1 ≤ n) (hmax : n ≤ Config.maxLanes) : (State.resetFor n).Wf := by
  have hl : (State.resetFor n).laneCount = n := List.length_replicate
  exact ⟨hl.symm ▸ hpos, hl.symm ▸ hmax, List.forall_mem_nil _⟩

/-- Every step keeps the invariant: reset leaves no beat, the handshake makes none, and a command makes only well-formed ones. -/
theorem step_wf (hs : s.Wf) (h : step s = .next t) : t.Wf := by
  obtain ⟨r, hr, rfl⟩ | ⟨u, hl, ho, hu⟩ := step_next_reset_or_exec h
  · obtain ⟨hpos, hmax, -⟩ := hs
    exact resetFor_wf (hr ▸ hpos) (hr ▸ hmax)
  · have hwf : u.Wf := wf_of_observable_append hs hl (ho.trans (List.append_nil _).symm) (List.forall_mem_nil _)
    obtain rfl | ⟨i, hexec⟩ := hu
    · exact hwf
    · exact exec_wf hwf hexec
end Invariant

/-- Settles O42: the reset state of every `LANES`, the reference one among them, has no beat. -/
theorem resetMeetsInvariant : Obligations.ResetMeetsInvariant :=
  ⟨resetFor_wf (by decide) (by decide), fun _ => resetFor_wf⟩

/-- Settles O43, by the cases of an edge; a command appends only beats of the layout. -/
theorem stepKeepsInvariant : Obligations.StepKeepsInvariant := fun _ _ => step_wf

/-- Settles O44, by the cases of an edge; the bound on `LANES` is what `XO.SEED` needs. -/
theorem laneCountNeverChanges : Obligations.LaneCountNeverChanges :=
  fun _ _ ⟨_, hmax, _⟩ => step_laneCount hmax

end Sys2Proof.Machine
end

section
/-!
PROOFS. The state (10_state.md): what each command writes and leaves unchanged, the written marks, the words stored in
unwritten registers, and the order of the beats.
-/
namespace Sys2Proof.Machine

/-! ### The reset state and the unit tag -/

/-- Settles O41: every lane of the reset state is the unwritten one. -/
theorem resetLeavesEverythingUnwritten : Obligations.ResetLeavesEverythingUnwritten := by
  intro n
  refine ⟨rfl, List.length_replicate, fun l hl => ?_, rfl, rfl⟩
  cases List.eq_of_mem_replicate hl
  exact ⟨rfl, rfl⟩

/-- Settles O54: the equations of the two commands show their beats, and the tag is injective. -/
theorem unitTagTellsTheCommand : Obligations.UnitTagTellsTheCommand := fun s =>
  ⟨⟨_, _, exec_smNext s, rfl, rfl⟩, ⟨_, _, exec_xoAdv s, rfl, rfl⟩, fun _ _ => bit_injective⟩

/-! ### The frame of every command (R23) -/

/-- No command touches what the host drives at the coming edges. -/
theorem exec_inputs {i : Instr} {s t : State} (h : exec i s = .next t) : t.inputs = s.inputs := by
  cases i with
  | smSeed v => cases h; rfl
  | smNext => rw [exec_smNext] at h; cases h; rfl
  | xoLoad sel lane v =>
    obtain ⟨-, rfl⟩ := exec_xoLoad_next h
    exact writeStateWord_inputs ..
  | xoAdv => rw [exec_xoAdv] at h; cases h; rfl
  | xoSeed v => rw [exec_xoSeed] at h; cases h; rfl

/-- Settles O35, command by command; a load leaves every location but its own (R94). -/
theorem frameOfEveryCommand : Obligations.FrameOfEveryCommand := by
  intro i s t hs h
  refine ⟨exec_inputs h, exec_taken h, exec_laneCount hs h, ?_⟩
  cases i with
  | smSeed v => cases h; exact ⟨rfl, rfl, rfl⟩
  | smNext => rw [exec_smNext] at h; cases h; exact ⟨rfl, _, rfl⟩
  | xoLoad sel lane v =>
    obtain ⟨-, rfl⟩ := exec_xoLoad_next h
    refine ⟨writeStateWord_z .., writeStateWord_rq .., writeStateWord_draws .., fun sel' j hother => ?_⟩
    rw [writeStateWord_stateWord?, if_neg hother]
  | xoAdv => rw [exec_xoAdv] at h; cases h; exact ⟨rfl, _, rfl⟩
  | xoSeed v => rw [exec_xoSeed] at h; cases h; exact ⟨rfl, rfl⟩

/-! ### The written marks (R29) -/

section Marks
variable (l : Lane) (sel : StateWord) (v : Word)

theorem loadWord_s0_written : (l.loadWord sel v).s0.written = (l.s0.written || decide (sel = .s0)) := by
  cases sel with
  | s0 => exact (Bool.or_true _).symm
  | s1 => exact (Bool.or_false _).symm

theorem loadWord_s1_written : (l.loadWord sel v).s1.written = (l.s1.written || decide (sel = .s1)) := by
  cases sel with
  | s0 => exact (Bool.or_false _).symm
  | s1 => exact (Bool.or_true _).symm

/-- Lane `j` after a load of lane `lane` (R94). -/
theorem writeStateWord_getElem? (s : State) (lane j : Nat) :
    (s.writeStateWord sel lane v).lanes[j]? = (s.lanes[j]?).map fun l => if lane = j then l.loadWord sel v else l := by
  rw [writeStateWord_lanes, List.getElem?_modify]
  cases s.lanes[j]? <;> split <;> rfl

/-- The lanes of combined seeding are written (R113). -/
theorem seedLanes_written (w : List Word) : ∀ l ∈ seedLanes w, l.s0.written = true ∧ l.s1.written = true := by
  intro l hl
  obtain ⟨n, hn⟩ := List.getElem?_of_mem hl
  obtain ⟨a, b, -, -, rfl⟩ := List.getElem?_zipWith_eq_some.1 hn
  exact ⟨rfl, rfl⟩
end Marks

/-- Settles O36, command by command; `XO.ADV` gives both words of a lane the mark of the whole lane. -/
theorem writtenMarksMoveAsStated : Obligations.WrittenMarksMoveAsStated := by
  intro i s t h
  cases i with
  | smSeed v =>
    cases h
    exact ⟨rfl, fun j l l' hl hl' => Option.some.inj (hl'.symm.trans hl)⟩
  | smNext =>
    rw [exec_smNext] at h
    cases h
    exact ⟨rfl, fun j l l' hl hl' => Option.some.inj (hl'.symm.trans hl)⟩
  | xoLoad sel lane v =>
    obtain ⟨-, rfl⟩ := exec_xoLoad_next h
    refine ⟨rfl, fun j l l' hl hl' => ?_⟩
    rw [writeStateWord_getElem?, hl] at hl'
    cases hl'
    by_cases hj : lane.val = j
    · simp only [hj, if_true, loadWord_s0_written, loadWord_s1_written, decide_true, Bool.true_and, and_self]
    · simp only [hj, Ne.symm hj, if_false, decide_false, Bool.false_and, Bool.or_false, and_self]
  | xoAdv =>
    rw [exec_xoAdv] at h
    cases h
    refine ⟨rfl, fun j l l' hl hl' => ?_⟩
    rw [lanesAdvanced_getElem?, hl] at hl'
    cases hl'
    exact ⟨rfl, rfl⟩
  | xoSeed v =>
    rw [exec_xoSeed] at h
    cases h
    exact ⟨rfl, fun j l l' _ hl' => seedLanes_written _ l' (List.mem_of_mem_take (List.mem_of_getElem? hl'))⟩

/-! ### The words stored in unwritten registers (R30) -/

section Masking

@[simp] theorem reg_masked_masked (r : Reg) : r.masked.masked = r.masked := by
  cases h : r.written with
  | false => simp [Reg.masked, h]
  | true => rw [masked_of_written r h, masked_of_written r h]

section Lane
variable (l : Lane) (k : Nat)

@[simp] theorem lane_masked_masked : l.masked.masked = l.masked := by
  simp only [Lane.masked, reg_masked_masked]

@[simp] theorem lane_masked_written : l.masked.written = l.written := by
  simp only [Lane.written, Lane.masked, masked_written]

@[simp] theorem lane_masked_readS0 : l.masked.readS0 k = l.readS0 k := masked_read ..
@[simp] theorem lane_masked_readS1 : l.masked.readS1 k = l.readS1 k := masked_read ..

@[simp] theorem lane_masked_output : l.masked.output k = l.output k := by
  simp only [Lane.output, lane_masked_readS0, lane_masked_readS1]

@[simp] theorem lane_masked_advance : l.masked.advance k = l.advance k := by
  simp only [Lane.advance, lane_masked_readS0, lane_masked_readS1, lane_masked_written]

/-- The word a load leaves in place stays as observable as it was. -/
theorem lane_masked_loadWord (sel : StateWord) (v : Word) :
    (l.masked.loadWord sel v).masked = (l.loadWord sel v).masked := by
  cases sel <;> simp only [Lane.masked, Lane.loadWord, reg_masked_masked]
end Lane

section State
variable (s : State)

@[simp] theorem masked_z : s.masked.z = s.z.masked := rfl
@[simp] theorem masked_lanes : s.masked.lanes = s.lanes.map Lane.masked := rfl
@[simp] theorem masked_draws : s.masked.draws = s.draws := rfl
@[simp] theorem masked_laneDraw (i : Nat) : s.masked.laneDraw i = s.laneDraw i := rfl

theorem masked_laneCount : s.masked.laneCount = s.laneCount := List.length_map _

theorem masked_lanesWritten : s.masked.lanesWritten = s.lanesWritten := by
  simp only [State.lanesWritten, masked_lanes, List.all_map, Function.comp_def, lane_masked_written]

/-- `XO.ADV` emits the same beat whatever is stored in unwritten registers. -/
theorem masked_laneOutputs : s.masked.laneOutputs = s.laneOutputs := by
  refine List.ext_getElem? fun i => ?_
  simp only [laneOutputs_getElem?, masked_lanes, masked_laneDraw, List.getElem?_map, Option.map_map, Function.comp_def,
    lane_masked_output]

/-- `XO.ADV` leaves the same lanes whatever is stored in unwritten registers. -/
theorem masked_lanesAdvanced : s.masked.lanesAdvanced = s.lanesAdvanced := by
  refine List.ext_getElem? fun i => ?_
  simp only [lanesAdvanced_getElem?, masked_lanes, masked_laneDraw, List.getElem?_map, Option.map_map, Function.comp_def,
    lane_masked_advance]

theorem map_masked_masked : (s.lanes.map Lane.masked).map Lane.masked = s.lanes.map Lane.masked := by
  simp only [List.map_map, Function.comp_def, lane_masked_masked]

/-- A load leaves the same state but for the words stored in unwritten registers. -/
theorem masked_writeStateWord_lanes (sel : StateWord) (lane : Nat) (v : Word) :
    (s.masked.writeStateWord sel lane v).lanes.map Lane.masked = (s.writeStateWord sel lane v).lanes.map Lane.masked := by
  refine List.ext_getElem? fun j => ?_
  simp only [List.getElem?_map, writeStateWord_getElem?, masked_lanes, Option.map_map]
  refine congrFun (congrArg Option.map (funext fun l => ?_)) _
  by_cases hj : lane = j
  · simp only [Function.comp_apply, if_pos hj, lane_masked_loadWord]
  · simp only [Function.comp_apply, if_neg hj, lane_masked_masked]
end State

/-- States that differ in the data registers only have the same mask when their registers do. -/
theorem masked_eq_of_registers {t t' : State} (hother : t' = { t with z := t'.z, lanes := t'.lanes })
    (hz : t'.z.masked = t.z.masked) (hlanes : t'.lanes.map Lane.masked = t.lanes.map Lane.masked) :
    t'.masked = t.masked := by
  rw [State.masked, hz, hlanes, hother, State.masked]

end Masking

/-- Settles O40, command by command: a command reads a register through its mark, so it computes the same values, and what it
leaves in place is masked as before. -/
theorem unwrittenContentIsUnobservable : Obligations.UnwrittenContentIsUnobservable := by
  intro i s t h
  cases i with
  | smSeed v =>
    cases h
    exact ⟨_, exec_smSeed v _, masked_eq_of_registers rfl rfl (map_masked_masked s), rfl⟩
  | smNext =>
    rw [exec_smNext] at h
    cases h
    rw [exec_smNext, masked_laneCount, masked_z, masked_draws, masked_read, masked_written]
    exact ⟨_, rfl, masked_eq_of_registers rfl rfl (map_masked_masked s), rfl⟩
  | xoLoad sel lane v =>
    obtain ⟨hl, rfl⟩ := exec_xoLoad_next h
    refine ⟨_, exec_xoLoad_present (hl.trans_eq (masked_laneCount s).symm) sel v, ?_, rfl⟩
    exact masked_eq_of_registers rfl (reg_masked_masked s.z) (masked_writeStateWord_lanes s sel lane v)
  | xoAdv =>
    rw [exec_xoAdv] at h
    cases h
    rw [exec_xoAdv, masked_lanesAdvanced, masked_laneOutputs, masked_lanesWritten, masked_laneCount]
    exact ⟨_, rfl, masked_eq_of_registers rfl (reg_masked_masked s.z) rfl, rfl⟩
  | xoSeed v =>
    rw [exec_xoSeed] at h
    cases h
    rw [exec_xoSeed, masked_laneCount]
    exact ⟨_, rfl, masked_eq_of_registers rfl rfl rfl, rfl⟩

/-! ### The order of the beats (R27, 20_memory.md R53) -/

/-- A command appends one beat if it is one that emits, and none otherwise (R27). -/
theorem commandBeats_length (s : State) (i : Instr) : (commandBeats s i).length = if emits i then 1 else 0 := by
  cases i <;> rfl

/-- The host takes the front beat, if there is one (R53). -/
theorem takeBeat_taken (s : State) : s.takeBeat.taken = s.taken ++ s.rq.take 1 := by
  cases hq : s.rq with
  | nil => rw [takeBeat_of_empty s hq, List.take_nil, List.append_nil]
  | cons b rest => rw [takeBeat_of_front s hq]; rfl

theorem takeBeat_if_taken (s : State) (ready : Bool) :
    (if ready then s.takeBeat else s).taken = s.taken ++ if ready then s.rq.take 1 else [] := by
  cases ready with
  | false => exact (List.append_nil _).symm
  | true => exact takeBeat_taken s

/-- Settles O49: the host moves at most the front beat inside the observable, and the command, if any, appends its own beats. -/
theorem beatsLeaveInCommandOrder : Obligations.BeatsLeaveInCommandOrder := by
  intro s t e rest hin hrst h
  obtain ⟨hnil, -⟩ | ⟨e', rest', hin', hrst', -⟩ | ⟨e', rest', u, hin', -, hu, hcmd⟩ := step_next h
  case inl => rw [hin] at hnil; cases hnil
  case inr.inl =>
    rw [hin] at hin'
    cases hin'
    rw [hrst] at hrst'
    cases hrst'
  case inr.inr =>
    rw [hin] at hin'
    cases hin'
    have hobs : u.observable = s.observable := hu ▸ takeBeat_if_observable { s with inputs := rest } e.resReady
    have hlanes : u.laneCount = s.laneCount := hu ▸ takeBeat_if_laneCount { s with inputs := rest } e.resReady
    have htaken : u.taken = s.taken ++ if e.resReady then s.rq.take 1 else [] :=
      hu ▸ takeBeat_if_taken { s with inputs := rest } e.resReady
    obtain ⟨hnone, rfl⟩ | ⟨c, i, hsome, hdec, hexec⟩ := hcmd
    · exact ⟨[], by rw [hobs, List.append_nil], by rw [hnone, List.length_nil], htaken⟩
    · refine ⟨commandBeats u i, by rw [exec_observable hexec, hobs], ?_, (exec_taken hexec).trans htaken⟩
      rw [hlanes] at hdec
      simp only [hsome, hdec, commandBeats_length]

end Sys2Proof.Machine
end

section
/-!
PROOFS. Memory and the ports (20_memory.md): the equation of one edge, what the result channel presents, the layout of
`res_data`, and the independence of the handshakes.
-/
namespace Sys2Proof.Machine

/-! ### One edge (R52, R53) -/

/-- With no edge left the block is idle. -/
theorem step_of_no_edge {s : State} (hin : s.inputs = []) : step s = .next s := by
  simp only [step, hin]

/-- An edge with `rst = 1` resets the block, whatever else the host drives (60_exceptions.md R123). -/
theorem step_of_reset_edge {s : State} {e : Edge} {rest : List Edge} (hin : s.inputs = e :: rest) (hrst : e.rst = true) :
    step s = .next (State.applyReset { s with inputs := rest }) := by
  simp only [step, hin, edge, hrst, if_true]

/-- An edge without reset: the front beat may be taken, then the command, if any, is offered. -/
theorem step_of_edge {s : State} {e : Edge} {rest : List Edge} (hin : s.inputs = e :: rest) (hrst : e.rst = false) :
    step s = offer e.command (if e.resReady then State.takeBeat { s with inputs := rest } else { s with inputs := rest }) := by
  simp only [step, hin, edge, hrst, Bool.false_eq_true, if_false]

theorem accept_of_decode {s : State} {c : Command} {i : Instr} (hdec : decode s.laneCount c.word c.operand = .ok i) :
    accept c s = exec i s := by
  simp only [accept, hdec]

/-- An accepted command that answers a next state is the one its word decodes to. -/
theorem accept_next {s t : State} {c : Command} (h : accept c s = .next t) :
    ∃ i, decode s.laneCount c.word c.operand = .ok i ∧ exec i s = .next t := by
  obtain ⟨i, _, hdec, -, -⟩ | ⟨w, -, hrefused⟩ := accept_cases c s
  · exact ⟨i, hdec, (accept_of_decode hdec).symm.trans h⟩
  · cases hrefused.symm.trans h

/-- Settles O45: the command is offered after the beat is taken, which keeps `LANES` and hence the decoding. -/
theorem stepRunsDecodedCommand : Obligations.StepRunsDecodedCommand := by
  intro s e rest c i hin hrst hcmd hdec
  rw [step_of_edge hin hrst, hcmd]
  exact accept_of_decode ((takeBeat_if_laneCount { s with inputs := rest } e.resReady).symm ▸ hdec)

/-- Settles O48: without a command an edge is what the host's readiness makes of the queue. -/
theorem handshakesWithoutCommand : Obligations.HandshakesWithoutCommand := by
  refine ⟨fun s => step_of_no_edge, fun s rest hin => step_of_edge hin rfl, fun s rest b bs hin hq => ?_,
    fun s rest hin hq => ?_⟩
  · exact (step_of_edge hin rfl).trans (congrArg _ (takeBeat_of_front { s with inputs := rest } hq))
  · exact (step_of_edge hin rfl).trans (congrArg _ (takeBeat_of_empty { s with inputs := rest } hq))

/-! ### The result channel (R53) -/

/-- An edge without reset in terms of the queue alone: what is taken, and what is left of the queue with the new beats. -/
theorem step_taken_rq {s t : State} {e : Edge} {rest : List Edge} (hin : s.inputs = e :: rest) (hrst : e.rst = false)
    (h : step s = .next t) :
    t.taken = s.taken ++ (if e.resReady then s.rq.take 1 else []) ∧
      ∃ new, (if e.resReady then s.rq.take 1 else []) ++ t.rq = s.rq ++ new := by
  obtain ⟨new, hobs, -, htaken⟩ := beatsLeaveInCommandOrder s t e rest hin hrst h
  refine ⟨htaken, new, ?_⟩
  rw [State.observable, State.observable, htaken, List.append_assoc, List.append_assoc] at hobs
  exact List.append_cancel_left hobs

/-- Settles O53, from what an edge takes and leaves; under reset both lists of beats are emptied. -/
theorem resultChannelPresentsFrontBeat : Obligations.ResultChannelPresentsFrontBeat := by
  intro s e rest hin
  refine ⟨resValid_iff s e.rst, fun hv => ?_, fun t h => ?_⟩
  · exact Option.isSome_iff_exists.1 (List.isSome_head?.2 ((resValid_iff s e.rst).1 hv).2)
  cases hrst : e.rst with
  | true =>
    rw [step_of_reset_edge hin hrst] at h
    cases h
    exact ⟨fun _ hv => (nomatch hv), fun hv => (nomatch hv), fun _ hf => (nomatch hf), fun _ => ⟨rfl, rfl⟩⟩
  | false =>
    obtain ⟨htaken, new, hrq⟩ := step_taken_rq hin hrst h
    refine ⟨fun b _ hready hfront => ?taken, fun hv hready => ?held, fun hv _ => ?none, fun hf => nomatch hf⟩
    case taken =>
      obtain ⟨bs, hq⟩ := List.head?_eq_some_iff.1 hfront
      rw [hready, hq] at htaken hrq
      exact ⟨htaken, new, hq ▸ hrq.symm⟩
    case held =>
      rw [hready] at htaken hrq
      have hq : s.rq ≠ [] := ((resValid_iff s false).1 hv).2
      have ht : t.rq = s.rq ++ new := hrq
      exact ⟨htaken.trans (List.append_nil _), by rw [State.front?, ht, List.head?_append_of_ne_nil _ hq]⟩
    case none =>
      have hq : s.rq = [] := by simpa using hv
      rw [htaken, hq, List.take_nil, ite_self, List.append_nil]

/-! ### The layout of `res_data` (R49) -/

/-- `res_data` as a number has the fields as its digits in base `2 ^ 64`, field 0 least significant. -/
theorem packFields_eq_ofDigits (ws : List Word) : packFields ws = Nat.ofDigits (2 ^ 64) (ws.map BitVec.toNat) := by
  induction ws with
  | nil => rfl
  | cons w ws ih => rw [packFields, ih, List.map_cons, Nat.ofDigits_cons]

theorem fields_lt (ws : List Word) : ∀ d ∈ ws.map BitVec.toNat, d < 2 ^ 64 :=
  List.forall_mem_map.2 fun w _ => w.isLt

/-- The fields fit in `res_data`: nothing is cut off. -/
theorem packFields_lt (ws : List Word) : packFields ws < 2 ^ (64 * ws.length) := by
  rw [packFields_eq_ofDigits, pow_mul, ← List.length_map BitVec.toNat]
  exact Nat.ofDigits_lt_base_pow_length (by decide) (fields_lt ws)

theorem resData_toNat (b : Beat) : b.resData.toNat = packFields b.fields := by
  rw [Beat.resData, BitVec.toNat_ofNat, Nat.mod_eq_of_lt (packFields_lt b.fields)]

/-- Dropping `64 * i` bits of `res_data` drops `i` fields. -/
theorem packFields_div (ws : List Word) (i : Nat) : packFields ws / 2 ^ (64 * i) = packFields (ws.drop i) := by
  rw [packFields_eq_ofDigits, packFields_eq_ofDigits, pow_mul, List.map_drop]
  exact Nat.ofDigits_div_pow_eq_ofDigits_drop i (by decide) _ (fields_lt ws)

/-- The low 64 bits are field 0. -/
theorem packFields_cons_mod (w : Word) (ws : List Word) : packFields (w :: ws) % 2 ^ 64 = w.toNat := by
  rw [packFields, Nat.add_mul_mod_self_left, Nat.mod_eq_of_lt w.isLt]

theorem packFields_replicate_zero (n : Nat) : packFields (List.replicate n 0#64) = 0 := by
  rw [packFields_eq_ofDigits, List.map_replicate]
  exact Nat.ofDigits_replicate_zero

/-- Settles O50: a slice of `res_data` is a shift and a truncation, that is a drop of fields and the first of the rest. -/
theorem resultDataLayout : Obligations.ResultDataLayout := by
  refine ⟨fun b i hi => BitVec.eq_of_toNat_eq ?_, fun n z hn => ⟨(smuBeat_wf hn z).1, ?_⟩⟩
  · rw [BitVec.extractLsb'_toNat, resData_toNat, Nat.shiftRight_eq_div_pow, packFields_div,
      List.drop_eq_getElem_cons hi, packFields_cons_mod]
  · rw [resData_toNat, smuBeat, packFields, packFields_replicate_zero, Nat.mul_zero, Nat.add_zero]

/-! ### Independence of the handshakes (R54, 70_reset_and_hazards.md R155) -/

/-- A state with the host's timing forgotten: every beat made so far is still in the queue, and no edge is to come. What is left
is what the accepted commands determine. -/
def State.untimed (s : State) : State := { s with rq := s.observable, taken := [], inputs := [] }

/-- A sequence of accepted commands, with no handshake between them; `steps_untimed` ties it to the steps of the machine. -/
def acceptAll : List Command → State → Host.Outcome State Fault Refusal
  | [], s => .next s
  | c :: cs, s =>
    match accept c s with
    | .next t => acceptAll cs t
    | .fault r => .fault r
    | .refused r => .refused r

theorem acceptAll_cons_next {c : Command} {s t : State} (h : accept c s = .next t) (cs : List Command) :
    acceptAll (c :: cs) s = acceptAll cs t := by
  simp only [acceptAll, h]

section Untimed
variable {s t : State}

/-- The host, ready or not, changes nothing but its own timing. -/
theorem takeBeat_if_untimed (s : State) (ready : Bool) : (if ready then s.takeBeat else s).untimed = s.untimed := by
  cases ready with
  | false => rfl
  | true => simp only [if_true, State.untimed, State.observable, takeBeat_observable, takeBeat_z, takeBeat_lanes, takeBeat_draws]

theorem takeBeat_if_inputs (s : State) (ready : Bool) : (if ready then s.takeBeat else s).inputs = s.inputs := by
  cases ready with
  | false => rfl
  | true => exact takeBeat_inputs s

/-- A beat appended to the queue is appended to the observable, whatever registers are written with it. -/
theorem untimed_emitted (s : State) (z : Reg) (lanes : List Lane) (b : Beat) (draws : Nat) :
    ({ s with z := z, lanes := lanes, rq := s.rq ++ [b], draws := draws } : State).untimed =
      { s.untimed with z := z, lanes := lanes, rq := s.untimed.rq ++ [b], draws := draws } := by
  simp only [State.untimed, State.observable, List.append_assoc]

/-- No command sees the host's timing: it reads neither the queue nor the edges, and appends its beats at the end. -/
theorem exec_untimed {i : Instr} (h : exec i s = .next t) : exec i s.untimed = .next t.untimed := by
  cases i with
  | smSeed v => cases h; rfl
  | smNext =>
    rw [exec_smNext] at h ⊢
    cases h
    exact congrArg _ (untimed_emitted s ..).symm
  | xoLoad sel lane v =>
    obtain ⟨hl, rfl⟩ := exec_xoLoad_next h
    exact exec_xoLoad_present (s := s.untimed) hl sel v
  | xoAdv =>
    rw [exec_xoAdv] at h ⊢
    cases h
    exact congrArg _ (untimed_emitted s ..).symm
  | xoSeed v =>
    rw [exec_xoSeed] at h ⊢
    cases h
    rfl

theorem accept_untimed {c : Command} (h : accept c s = .next t) : accept c s.untimed = .next t.untimed := by
  obtain ⟨i, hdec, hexec⟩ := accept_next h
  exact (accept_of_decode (s := s.untimed) hdec).trans (exec_untimed hexec)

theorem accept_inputs {c : Command} (h : accept c s = .next t) : t.inputs = s.inputs := by
  obtain ⟨i, -, hexec⟩ := accept_next h
  exact exec_inputs hexec

/-- An edge without reset offers its command to a state that differs from `s` in the host's timing only. -/
theorem step_eq_offer_untimed {e : Edge} {rest : List Edge} (hin : s.inputs = e :: rest) (hrst : e.rst = false) :
    ∃ u : State, u.untimed = s.untimed ∧ u.inputs = rest ∧ step s = offer e.command u :=
  ⟨_, takeBeat_if_untimed { s with inputs := rest } e.resReady, takeBeat_if_inputs { s with inputs := rest } e.resReady,
    step_of_edge hin hrst⟩

/-- A run without reset, its timing forgotten, is the sequence of the commands its edges bring. -/
theorem steps_untimed {es : List Edge} (hin : s.inputs = es) (hrst : ∀ e ∈ es, e.rst = false)
    (h : steps es.length s = .next t) : acceptAll (es.filterMap Edge.command) s.untimed = .next t.untimed := by
  induction es generalizing s with
  | nil => cases h; rfl
  | cons e es ih =>
    obtain ⟨hrst_e, hrst_es⟩ := List.forall_mem_cons.1 hrst
    obtain ⟨s₁, hstep, hrun⟩ := steps_succ_cases h
    obtain ⟨u, hu, hi, hoffer⟩ := step_eq_offer_untimed hin hrst_e
    rw [hoffer] at hstep
    rw [← hu]
    cases hcmd : e.command with
    | none =>
      rw [hcmd] at hstep
      cases hstep
      rw [List.filterMap_cons_none hcmd]
      exact ih hi hrst_es hrun
    | some c =>
      rw [hcmd] at hstep
      rw [List.filterMap_cons_some hcmd, acceptAll_cons_next (accept_untimed hstep)]
      exact ih ((accept_inputs hstep).trans hi) hrst_es hrun
end Untimed

/-- Settles O52: both runs, their timing forgotten, are one sequence of commands from one state. -/
theorem observableIndependentOfHandshakes : Obligations.ObservableIndependentOfHandshakes := by
  intro s t u es fs hes hfs hcmds ht hu
  have ht' := steps_untimed (s := { s with inputs := es }) rfl hes ht
  have hu' := steps_untimed (s := { s with inputs := fs }) rfl hfs hu
  rw [hcmds] at ht'
  obtain ⟨hz, hlanes, hobs, -⟩ := State.mk.inj (Host.Outcome.next.inj (ht'.symm.trans hu'))
  exact ⟨hobs, hz, hlanes⟩

end Sys2Proof.Machine
end

section
/-!
PROOFS. The encoding (30_encoding.md): the fields of a command word, which words are legal, that the decoder and the encoder are
inverse to each other, the reserved words, and that only they stop the block.
-/
namespace Sys2Proof.Machine

/-! ### The fields of a command word (R55) -/

section Fields
variable (c : BitVec 8)

theorem opField_toNat : (opField c).toNat = c.toNat / 16 := by
  rw [opField, BitVec.extractLsb'_toNat, Nat.shiftRight_eq_div_pow]
  omega

theorem rsvField_eq_false_iff : rsvField c = false ↔ c.toNat / 8 % 2 = 0 := by
  rw [rsvField, BitVec.getLsbD, Nat.testBit_eq_decide_div_mod_eq, decide_eq_false_iff_not]
  omega

theorem selField_sel : (selField c).sel = c.toNat / 4 % 2 := by
  have hbit : c.getLsbD 2 = true ↔ c.toNat / 4 % 2 = 1 := by
    rw [BitVec.getLsbD, Nat.testBit_eq_decide_div_mod_eq, decide_eq_true_iff]
  by_cases h : c.getLsbD 2 = true
  · rw [selField, if_pos h, StateWord.sel, hbit.1 h]
  · have hzero : c.toNat / 4 % 2 ≠ 1 := mt hbit.2 h
    rw [selField, if_neg h, StateWord.sel]
    omega

theorem laneField_val : (laneField c).val = c.toNat % 4 := rfl

theorem lowNibble_toNat : (c.extractLsb' 0 4).toNat = c.toNat % 16 := BitVec.extractLsb'_toNat ..

/-- A command word is its opcode and its low nibble. -/
theorem word_eq_iff (d : BitVec 8) : c = d ↔ opField c = opField d ∧ c.extractLsb' 0 4 = d.extractLsb' 0 4 := by
  rw [← BitVec.toNat_inj, ← BitVec.toNat_inj, ← BitVec.toNat_inj, opField_toNat, opField_toNat, lowNibble_toNat,
    lowNibble_toNat]
  omega

/-- The five bits the decoder tests for format `L` are the fields `op` and `rsv`. -/
theorem loadFormat_iff : c.extractLsb' 3 5 = 0b01000#5 ↔ opField c = 0b0100#4 ∧ rsvField c = false := by
  rw [← BitVec.toNat_inj, ← BitVec.toNat_inj, opField_toNat, rsvField_eq_false_iff, BitVec.extractLsb'_toNat,
    Nat.shiftRight_eq_div_pow]
  simp only [BitVec.toNat_ofNat]
  omega
end Fields

/-- The command word of `XO.LOAD` (R57); `encode_xoLoad` ties it to the encoder. -/
def loadCommandWord (sel : StateWord) (lane : Fin 4) : BitVec 8 := BitVec.ofNat 8 (0x40 + 4 * sel.sel + lane.val)

theorem encode_xoLoad (sel : StateWord) (lane : Fin 4) (v : Word) :
    encode (.xoLoad sel lane v) = ⟨loadCommandWord sel lane, v⟩ := rfl

/-- The four fields of a word of format `L` (R57), read off the eight words. -/
theorem loadCommandWord_fields (sel : StateWord) (lane : Fin 4) :
    opField (loadCommandWord sel lane) = 0b0100#4 ∧ rsvField (loadCommandWord sel lane) = false ∧
      selField (loadCommandWord sel lane) = sel ∧ laneField (loadCommandWord sel lane) = lane := by
  revert lane
  cases sel <;> decide

/-- A word of format `L` is the load word of its own fields `sel` and `lane`. -/
theorem loadCommandWord_of_fields {c : BitVec 8} (hop : opField c = 0b0100#4) (hrsv : rsvField c = false) :
    loadCommandWord (selField c) (laneField c) = c := by
  rw [← BitVec.toNat_inj, opField_toNat, BitVec.toNat_ofNat] at hop
  rw [rsvField_eq_false_iff] at hrsv
  rw [← BitVec.toNat_inj, loadCommandWord, BitVec.toNat_ofNat, selField_sel, laneField_val]
  omega

/-! ### The legal words (R59, R61) -/

/-- The opcodes of the commands of formats `W` and `N`, whose low nibble is zero (R59). -/
abbrev PlainOp (op : BitVec 4) : Prop := op = 0b0001#4 ∨ op = 0b0010#4 ∨ op = 0b0101#4 ∨ op = 0b0110#4

/-- A legal command word in terms of its fields; `legalWord_iff_encoded` ties it to the encoder and `decode_error_iff` to the
decoder. -/
def LegalWord (lanes : Nat) (c : BitVec 8) : Prop :=
  PlainOp (opField c) ∧ c.extractLsb' 0 4 = 0#4 ∨
    opField c = 0b0100#4 ∧ rsvField c = false ∧ (laneField c).val < lanes

/-- The legal words are the words of the commands that are legal on the block. -/
theorem legalWord_iff_encoded {lanes : Nat} {c : BitVec 8} :
    LegalWord lanes c ↔ ∃ i : Instr, i.wellFormed lanes = true ∧ (encode i).word = c := by
  constructor
  · rintro (⟨hop | hop | hop | hop, hlow⟩ | ⟨hop, hrsv, hlane⟩)
    · exact ⟨.smSeed 0#64, rfl, ((word_eq_iff c 0x10#8).2 ⟨hop, hlow⟩).symm⟩
    · exact ⟨.smNext, rfl, ((word_eq_iff c 0x20#8).2 ⟨hop, hlow⟩).symm⟩
    · exact ⟨.xoAdv, rfl, ((word_eq_iff c 0x50#8).2 ⟨hop, hlow⟩).symm⟩
    · exact ⟨.xoSeed 0#64, rfl, ((word_eq_iff c 0x60#8).2 ⟨hop, hlow⟩).symm⟩
    · exact ⟨.xoLoad (selField c) (laneField c) 0#64, decide_eq_true hlane, loadCommandWord_of_fields hop hrsv⟩
  · rintro ⟨i, hi, rfl⟩
    cases i with
    | smSeed v =>
      show LegalWord lanes 0x10#8
      exact .inl ⟨.inl rfl, rfl⟩
    | smNext => exact .inl ⟨.inr (.inl rfl), rfl⟩
    | xoLoad sel lane v =>
      obtain ⟨hop, hrsv, -, hlane⟩ := loadCommandWord_fields sel lane
      have hpresent : lane.val < lanes := of_decide_eq_true hi
      rw [encode_xoLoad]
      exact .inr ⟨hop, hrsv, hlane.symm ▸ hpresent⟩
    | xoAdv => exact .inl ⟨.inr (.inr (.inl rfl)), rfl⟩
    | xoSeed v =>
      show LegalWord lanes 0x60#8
      exact .inl ⟨.inr (.inr (.inr rfl)), rfl⟩

section WithOperand
variable (i : Instr) (v : Word)

theorem withOperand_wellFormed (lanes : Nat) : (i.withOperand v).wellFormed lanes = i.wellFormed lanes := by
  cases i <;> rfl

theorem encode_withOperand_word : (encode (i.withOperand v)).word = (encode i).word := by
  cases i <;> rfl

/-- A command carries the operand its encoding shows. -/
theorem withOperand_encode_operand : i.withOperand (encode i).operand = i := by
  cases i <;> rfl

/-- Outside format `N` the operand is carried whole (R58). -/
theorem encode_withOperand_operand (hnext : i.withOperand v ≠ .smNext) (hadv : i.withOperand v ≠ .xoAdv) :
    (encode (i.withOperand v)).operand = v := by
  cases i with
  | smSeed u => rfl
  | smNext => exact absurd rfl hnext
  | xoLoad sel lane u => rfl
  | xoAdv => exact absurd rfl hadv
  | xoSeed u => rfl
end WithOperand

/-! ### The decoder, said once: on the words of the commands, and on every other word (R61) -/

section Decoder
variable {lanes : Nat} {c : BitVec 8} {v : Word}

theorem decode_smSeed (lanes : Nat) (v : Word) : decode lanes 0x10#8 v = .ok (.smSeed v) := rfl

theorem decode_smNext (lanes : Nat) (v : Word) : decode lanes 0x20#8 v = .ok .smNext := rfl

theorem decode_xoAdv (lanes : Nat) (v : Word) : decode lanes 0x50#8 v = .ok .xoAdv := by
  have hload : ¬ ((0x50#8).extractLsb' 3 5 = 0b01000#5 ∧ (laneField 0x50#8).val < lanes) := fun h => absurd h.1 (by decide)
  rw [decode, if_neg (by decide), if_neg (by decide), if_neg hload, if_pos rfl]

theorem decode_xoSeed (lanes : Nat) (v : Word) : decode lanes 0x60#8 v = .ok (.xoSeed v) := by
  have hload : ¬ ((0x60#8).extractLsb' 3 5 = 0b01000#5 ∧ (laneField 0x60#8).val < lanes) := fun h => absurd h.1 (by decide)
  rw [decode, if_neg (by decide), if_neg (by decide), if_neg hload, if_neg (by decide), if_pos rfl]

/-- The decoder's row of format `L`. -/
theorem decode_of_loadFormat (hload : c.extractLsb' 3 5 = 0b01000#5) (hlane : (laneField c).val < lanes) :
    decode lanes c v = .ok (.xoLoad (selField c) (laneField c) v) := by
  have hseed : c ≠ 0x10#8 := by rintro rfl; exact absurd hload (by decide)
  have hnext : c ≠ 0x20#8 := by rintro rfl; exact absurd hload (by decide)
  rw [decode, if_neg hseed, if_neg hnext, if_pos ⟨hload, hlane⟩]

/-- The word of a command that is legal on the block decodes to that command, with the operand beside the word. -/
theorem decode_encode_word {i : Instr} (hi : i.wellFormed lanes = true) (v : Word) :
    decode lanes (encode i).word v = .ok (i.withOperand v) := by
  cases i with
  | smSeed u => exact decode_smSeed lanes v
  | smNext => exact decode_smNext lanes v
  | xoLoad sel lane u =>
    obtain ⟨hop, hrsv, hsel, hlane⟩ := loadCommandWord_fields sel lane
    have hpresent : lane.val < lanes := of_decide_eq_true hi
    rw [encode_xoLoad, decode_of_loadFormat ((loadFormat_iff _).2 ⟨hop, hrsv⟩) (hlane.symm ▸ hpresent), hsel, hlane,
      Instr.withOperand]
  | xoAdv => exact decode_xoAdv lanes v
  | xoSeed u => exact decode_xoSeed lanes v

/-- A word that is not legal is rejected with its class: it is none of the words the decoder tests for. -/
theorem decode_of_not_legalWord (hc : ¬ LegalWord lanes c) : decode lanes c v = .error (reservedClass c) := by
  have hne (i : Instr) (hi : i.wellFormed lanes = true) : c ≠ (encode i).word := fun h =>
    hc (legalWord_iff_encoded.2 ⟨i, hi, h.symm⟩)
  have hseed : c ≠ 0x10#8 := hne (.smSeed v) rfl
  have hnext : c ≠ 0x20#8 := hne .smNext rfl
  have hadv : c ≠ 0x50#8 := hne .xoAdv rfl
  have hxoSeed : c ≠ 0x60#8 := hne (.xoSeed v) rfl
  have hload : ¬ (c.extractLsb' 3 5 = 0b01000#5 ∧ (laneField c).val < lanes) := fun ⟨hformat, hlane⟩ =>
    have ⟨hop, hrsv⟩ := (loadFormat_iff c).1 hformat
    hc (.inr ⟨hop, hrsv, hlane⟩)
  rw [decode, if_neg hseed, if_neg hnext, if_neg hload, if_neg hadv, if_neg hxoSeed]

/-- The decoder answers a command exactly on the command's own word, with the operand beside it. -/
theorem decode_ok_iff {i : Instr} :
    decode lanes c v = .ok i ↔ ∃ j : Instr, j.wellFormed lanes = true ∧ (encode j).word = c ∧ j.withOperand v = i := by
  constructor
  · intro h
    by_cases hc : LegalWord lanes c
    · obtain ⟨j, hj, rfl⟩ := legalWord_iff_encoded.1 hc
      exact ⟨j, hj, rfl, Except.ok.inj ((decode_encode_word hj v).symm.trans h)⟩
    · cases (decode_of_not_legalWord hc).symm.trans h
  · rintro ⟨j, hj, rfl, rfl⟩
    exact decode_encode_word hj v

/-- The decoder rejects exactly the words that are not legal, each by its class. -/
theorem decode_error_iff {r : ReservedWord} :
    decode lanes c v = .error r ↔ ¬ LegalWord lanes c ∧ reservedClass c = r := by
  constructor
  · intro h
    have hc : ¬ LegalWord lanes c := fun hlegal => by
      obtain ⟨i, hi, rfl⟩ := legalWord_iff_encoded.1 hlegal
      cases (decode_encode_word hi v).symm.trans h
    exact ⟨hc, Except.error.inj ((decode_of_not_legalWord hc).symm.trans h)⟩
  · rintro ⟨hc, rfl⟩
    exact decode_of_not_legalWord hc

/-- The operand plays no part in rejecting a word (R61). -/
theorem decode_error_operand {r : ReservedWord} (h : decode lanes c v = .error r) (w : Word) :
    decode lanes c w = .error r := decode_error_iff.2 (decode_error_iff.1 h)

/-- The operand plays no part in choosing the command, and is carried whole or ignored (R58, R61). -/
theorem decode_ok_operand {i : Instr} (h : decode lanes c v = .ok i) (w : Word) :
    decode lanes c w = .ok (i.withOperand w) := by
  obtain ⟨j, hj, rfl, rfl⟩ := decode_ok_iff.1 h
  rw [← encode_withOperand_word j v]
  exact decode_encode_word ((withOperand_wellFormed j v lanes).trans hj) w
end Decoder

/-- Settles O6: the word decodes to the command with the operand beside it, and that is the command's own. -/
theorem decodeOfEncodeIsIdentity : Obligations.DecodeOfEncodeIsIdentity := by
  intro lanes i hi
  rw [decode_encode_word hi, withOperand_encode_operand]

/-- Settles O7: the decoder answers only the command of the word, with the operand beside it. -/
theorem encodeOfDecodeIsIdentity : Obligations.EncodeOfDecodeIsIdentity := by
  intro lanes c v i h
  obtain ⟨j, hj, rfl, rfl⟩ := decode_ok_iff.1 h
  exact ⟨(withOperand_wellFormed j v lanes).trans hj, encode_withOperand_word j v, encode_withOperand_operand j v⟩

/-- Settles O5: both answers of the decoder carry over to another operand; format `N` commands carry none. -/
theorem operandIsUsedWholeOrIgnored : Obligations.OperandIsUsedWholeOrIgnored := by
  refine fun lanes c v w => ⟨fun i h => decode_ok_operand h w, fun r h => decode_error_operand h w, ?_⟩
  rintro s (rfl | rfl)
  · exact (accept_of_decode (decode_smNext ..)).trans (accept_of_decode (decode_smNext ..)).symm
  · exact (accept_of_decode (decode_xoAdv ..)).trans (accept_of_decode (decode_xoAdv ..)).symm

/-! ### The reserved words (R62) -/

section ReservedClass
variable (c : BitVec 8)

/-- `op = 0100` is the opcode of no command of format `W` or `N`. -/
theorem loadOp_not_plainOp : ¬ PlainOp 0b0100#4 := by decide

/-- The opcodes that belong to no command (R60). -/
theorem unassignedOp_iff : ∀ op : BitVec 4,
    op ≠ 0b0100#4 ∧ ¬ PlainOp op ↔ op = 0#4 ∨ op = 3#4 ∨ op = 7#4 ∨ 8 ≤ op.toNat := by
  decide

/-- What a class says of the fields of a word that is not legal (R62); `reservedClass_eq_iff` ties it to the decoder's choice. -/
def InReservedClass (c : BitVec 8) : ReservedWord → Prop
  | .unassignedOp => opField c ≠ 0b0100#4 ∧ ¬ PlainOp (opField c)
  | .nonzeroLowNibble => PlainOp (opField c)
  | .rsvSet => opField c = 0b0100#4 ∧ rsvField c = true
  | .laneAbsent => opField c = 0b0100#4 ∧ rsvField c = false

/-- The four classes exclude each other: the opcode, and under `op = 0100` the field `rsv`, chooses one. -/
theorem reservedClass_eq_iff (r : ReservedWord) : reservedClass c = r ↔ InReservedClass c r := by
  by_cases hload : opField c = 0b0100#4
  · rw [reservedClass, if_pos hload]
    cases hrsv : rsvField c <;> cases r <;> simp [InReservedClass, hload, hrsv]
  · rw [reservedClass, if_neg hload]
    by_cases hplain : PlainOp (opField c)
    · rw [if_pos hplain]
      cases r <;> simp only [InReservedClass, hload, hplain, reduceCtorEq, not_true, false_and, and_false]
    · rw [if_neg hplain]
      cases r <;> simp only [InReservedClass, hload, hplain, reduceCtorEq, ne_eq, not_false_iff, false_and, and_true]
end ReservedClass

section LegalByOpcode
variable {lanes : Nat} {c : BitVec 8}

/-- Under an opcode of format `W` or `N` the low nibble decides. -/
theorem legalWord_iff_of_plainOp (h : PlainOp (opField c)) : LegalWord lanes c ↔ c.extractLsb' 0 4 = 0#4 := by
  have hload : opField c ≠ 0b0100#4 := fun hop => loadOp_not_plainOp (hop ▸ h)
  simp only [LegalWord, h, hload, true_and, false_and, or_false]

/-- Under `op = 0100` the fields `rsv` and `lane` decide (R57). -/
theorem legalWord_iff_of_loadOp (h : opField c = 0b0100#4) :
    LegalWord lanes c ↔ rsvField c = false ∧ (laneField c).val < lanes := by
  simp only [LegalWord, h, loadOp_not_plainOp, true_and, false_and, false_or]

theorem not_legalWord_of_otherOp (hload : opField c ≠ 0b0100#4) (hplain : ¬ PlainOp (opField c)) :
    ¬ LegalWord lanes c := by
  rintro (⟨h, -⟩ | ⟨h, -⟩)
  · exact hplain h
  · exact hload h
end LegalByOpcode

section Rejection
variable {lanes : Nat} {c : BitVec 8} {v : Word}

theorem decode_unassignedOp_iff :
    decode lanes c v = .error .unassignedOp ↔
      opField c = 0#4 ∨ opField c = 3#4 ∨ opField c = 7#4 ∨ 8 ≤ (opField c).toNat := by
  rw [decode_error_iff, reservedClass_eq_iff, InReservedClass, ← unassignedOp_iff]
  exact and_iff_right_of_imp fun ⟨hload, hplain⟩ => not_legalWord_of_otherOp hload hplain

theorem decode_nonzeroLowNibble_iff :
    decode lanes c v = .error .nonzeroLowNibble ↔ PlainOp (opField c) ∧ c.extractLsb' 0 4 ≠ 0#4 := by
  rw [decode_error_iff, reservedClass_eq_iff, InReservedClass, and_comm]
  exact and_congr_right fun hplain => not_congr (legalWord_iff_of_plainOp hplain)

theorem decode_rsvSet_iff : decode lanes c v = .error .rsvSet ↔ opField c = 4#4 ∧ rsvField c = true := by
  rw [decode_error_iff, reservedClass_eq_iff, InReservedClass]
  refine and_iff_right_of_imp fun ⟨hload, hrsv⟩ hlegal => ?_
  cases hrsv.symm.trans ((legalWord_iff_of_loadOp hload).1 hlegal).1

theorem decode_laneAbsent_iff :
    decode lanes c v = .error .laneAbsent ↔ opField c = 4#4 ∧ rsvField c = false ∧ lanes ≤ (laneField c).val := by
  rw [decode_error_iff, reservedClass_eq_iff, InReservedClass, and_comm, and_assoc]
  refine and_congr_right fun hload => and_congr_right fun hrsv => ?_
  rw [legalWord_iff_of_loadOp hload, and_iff_right hrsv, not_lt]
end Rejection

/-- Settles O3, class by class: what the class says of the fields, together with the word not being legal. -/
theorem reservedWordsAreExactlyTheListed : Obligations.ReservedWordsAreExactlyTheListed := fun _ _ _ =>
  ⟨decode_unassignedOp_iff, decode_nonzeroLowNibble_iff, decode_rsvSet_iff, decode_laneAbsent_iff⟩

/-! ### The words of `XO.LOAD`, the opcode map and the count (R57, R59, R61) -/

/-- A load word decodes to its load when the lane is present, and is reserved otherwise (R57). -/
theorem decode_loadCommandWord (lanes : Nat) (sel : StateWord) (lane : Fin 4) (v : Word) :
    decode lanes (loadCommandWord sel lane) v =
      if lane.val < lanes then .ok (.xoLoad sel lane v) else .error .laneAbsent := by
  by_cases h : lane.val < lanes
  · rw [if_pos h]
    exact decode_encode_word (i := .xoLoad sel lane v) (decide_eq_true h) v
  · obtain ⟨hop, hrsv, -, hlane⟩ := loadCommandWord_fields sel lane
    rw [if_neg h]
    exact decode_laneAbsent_iff.2 ⟨hop, hrsv, hlane.symm ▸ not_lt.1 h⟩

/-- Settles O1: the fields of the word, and its decoding by the lane. -/
theorem loadWordsDecodeByFormula : Obligations.LoadWordsDecodeByFormula := by
  intro lanes sel lane v
  obtain ⟨hop, hrsv, hsel, hlane⟩ := loadCommandWord_fields sel lane
  exact ⟨encode_xoLoad sel lane v, hop, hrsv, hsel, hlane, decode_loadCommandWord lanes sel lane v⟩

/-- Settles O2: the decoder's equations at the words of the rows, `0x46` being the load word of `S1[2]` and `0x41` that of
`S0[1]`. -/
theorem opcodeMapWordsDecode : Obligations.OpcodeMapWordsDecode := fun v =>
  ⟨decode_smSeed 4 v, decode_smNext 4 v, decode_loadCommandWord 4 .s1 2 v, decode_xoAdv 4 v, decode_xoSeed 4 v,
    decode_unassignedOp_iff.2 (.inl rfl), decode_loadCommandWord 1 .s0 1 v⟩

/-- Whether a word is legal does not depend on the operand (R61). -/
theorem decode_isSome_operand (lanes : Nat) (c : BitVec 8) (v w : Word) :
    (decode lanes c v).toOption.isSome = (decode lanes c w).toOption.isSome := by
  cases h : decode lanes c v with
  | ok i => rw [decode_ok_operand h w]; rfl
  | error r => rw [decode_error_operand h w]

/-- Settles O4: the count does not depend on the operand, and with a fixed one it is counted over the 256 words. -/
theorem legalWordCount : Obligations.LegalWordCount := by
  intro lanes hlanes v
  simp only [decode_isSome_operand lanes _ v 0#64]
  simp only [List.mem_cons, List.not_mem_nil, or_false] at hlanes
  rcases hlanes with rfl | rfl | rfl | rfl <;> decide +kernel

/-! ### What stops the block (R63, R69, R120) -/

/-- Settles O37: a legal command's meaning answers a next state, whatever its registers hold. -/
theorem legalCommandsComplete : Obligations.LegalCommandsComplete := exec_wellFormed_next

section Refusal
variable {s : State} {r : Refusal}

theorem accept_refused_iff {c : Command} :
    accept c s = .refused r ↔ ∃ w, decode s.laneCount c.word c.operand = .error w ∧ r = .reserved w := by
  obtain ⟨i, t, hdec, -, hnext⟩ | ⟨w, hdec, hrefused⟩ := accept_cases c s
  · rw [hnext, hdec]
    exact iff_of_false (fun h => nomatch h) fun ⟨_, h, _⟩ => nomatch h
  · rw [hrefused, hdec]
    constructor
    · rintro ⟨⟩
      exact ⟨w, rfl, rfl⟩
    · rintro ⟨_, ⟨⟩, rfl⟩
      rfl

/-- An offer is refused only if it brings a command, and then as that command is. -/
theorem offer_refused_iff {o : Option Command} :
    offer o s = .refused r ↔
      ∃ c w, o = some c ∧ decode s.laneCount c.word c.operand = .error w ∧ r = .reserved w := by
  cases o with
  | none => exact iff_of_false (fun h => nomatch h) fun ⟨_, _, h, _⟩ => nomatch h
  | some c =>
    refine accept_refused_iff.trans ⟨fun ⟨w, hw⟩ => ⟨c, w, rfl, hw⟩, ?_⟩
    rintro ⟨_, w, ⟨⟩, hw⟩
    exact ⟨w, hw⟩

/-- A step is refused exactly when an edge without reset brings a reserved word: idling and reset answer a next state, and taking
a beat keeps `LANES`. -/
theorem step_refused_iff :
    step s = .refused r ↔ ∃ e rest c w, s.inputs = e :: rest ∧ e.rst = false ∧ e.command = some c ∧
      decode s.laneCount c.word c.operand = .error w ∧ r = .reserved w := by
  cases hin : s.inputs with
  | nil =>
    rw [step_of_no_edge hin]
    exact iff_of_false (fun h => nomatch h) fun ⟨_, _, _, _, h, _⟩ => nomatch h
  | cons e rest =>
    have hoffer (hrst : e.rst = false) : step s = .refused r ↔
        ∃ c w, e.command = some c ∧ decode s.laneCount c.word c.operand = .error w ∧ r = .reserved w := by
      rw [step_of_edge hin hrst, offer_refused_iff, takeBeat_if_laneCount]
    constructor
    · intro h
      have hrst : e.rst = false := Bool.eq_false_iff.2 fun hrst => by
        cases (step_of_reset_edge hin hrst).symm.trans h
      obtain ⟨c, w, hw⟩ := (hoffer hrst).1 h
      exact ⟨e, rest, c, w, rfl, hrst, hw⟩
    · rintro ⟨_, _, c, w, ⟨⟩, hrst, hw⟩
      exact (hoffer hrst).2 ⟨c, w, hw⟩
end Refusal

/-- Settles O46: there is no fault to answer (R120), and the refusals of a step are those of the decoder. -/
theorem onlyReservedWordsStopTheBlock : Obligations.OnlyReservedWordsStopTheBlock :=
  ⟨fun _ f => (nomatch f), fun _ _ => step_refused_iff⟩

end Sys2Proof.Machine
end

section
/-!
PROOFS. The SplitMix64 mixer unit (40_splitmix64.md): the XOR-shift stage, the bijections of the mixer, the chain of expansion, and
the commands `SM.SEED` and `SM.NEXT`.
-/
namespace Sys2Proof.Machine

/-! ### The XOR-shift stage (R75) -/

section XorShift
variable (z : Word) (k : Nat)

/-- A bit of the XOR-shift: the bit shifted in is zero above bit 63. -/
theorem xorShift_getLsbD (i : Nat) :
    (xorShift z k).getLsbD i = if i + k ≤ 63 then z.getLsbD i ^^ z.getLsbD (i + k) else z.getLsbD i := by
  rw [xorShift, BitVec.getLsbD_xor, BitVec.getLsbD_ushiftRight, Nat.add_comm k i]
  split
  · rfl
  · rw [BitVec.getLsbD_of_ge z (i + k) (by omega), Bool.xor_false]

theorem xorShift_ushiftRight (n : Nat) : xorShift z k >>> n = z >>> n ^^^ z >>> (k + n) := by
  rw [xorShift, BitVec.ushiftRight_xor_distrib, BitVec.shiftRight_add]

/-- The inverse the document states (R83): the three shifted copies of `y` telescope, and a shift by `3 * k` leaves nothing. -/
theorem xorShift_inverse {k : Nat} (hk : 64 ≤ 3 * k) :
    xorShift z k ^^^ xorShift z k >>> k ^^^ xorShift z k >>> (2 * k) = z := by
  have hzero : z >>> (k + 2 * k) = 0#64 := BitVec.ushiftRight_eq_zero (by omega)
  rw [xorShift_ushiftRight, xorShift_ushiftRight, hzero, xorShift, Nat.two_mul, BitVec.xor_zero]
  calc z ^^^ z >>> k ^^^ (z >>> k ^^^ z >>> (k + k)) ^^^ z >>> (k + k)
      _ = z ^^^ (z >>> k ^^^ z >>> k) ^^^ (z >>> (k + k) ^^^ z >>> (k + k)) := by ac_rfl
      _ = z := by rw [BitVec.xor_self, BitVec.xor_self, BitVec.xor_zero, BitVec.xor_zero]
end XorShift

/-- Settles O8: the bits of the stage, for every shift, and the constants. -/
theorem xorShiftBitByBit : Obligations.XorShiftBitByBit :=
  ⟨fun z k _ _ => ⟨rfl, fun i _ => xorShift_getLsbD z k i⟩, rfl, rfl, rfl⟩

/-! ### The stages are bijections (R83) -/

/-- Settles O9: the constants written out are those of the model. -/
theorem stepIsTheSixStages : Obligations.StepIsTheSixStages := fun _ => ⟨rfl, rfl⟩

/-- A map of words with a left inverse is a bijection: there are finitely many words. -/
theorem bijective_of_leftInverse {f g : Word → Word} (h : Function.LeftInverse g f) : Function.Bijective f :=
  Finite.injective_iff_bijective.1 h.injective

theorem xorShift_bijective {k : Nat} (hk : 64 ≤ 3 * k) : Function.Bijective (fun z : Word => xorShift z k) :=
  bijective_of_leftInverse (g := fun y => y ^^^ y >>> k ^^^ y >>> (2 * k)) fun z => xorShift_inverse z hk

/-- Multiplying by an odd constant is undone by its inverse modulo `2^64`. -/
theorem mul_bijective {m m' : Word} (h : m * m' = 1#64) : Function.Bijective (fun z : Word => z * m) :=
  bijective_of_leftInverse (g := fun y => y * m') fun z => by
    show z * m * m' = z
    rw [BitVec.mul_assoc, h, BitVec.mul_one]

theorem golden_inverse : golden + 0x61C8864680B583EB#64 = 0#64 := by decide

theorem multOne_inverse : multOne * 0x96DE1B173F119089#64 = 1#64 := by decide

theorem multTwo_inverse : multTwo * 0x319642B2D24D8EC3#64 = 1#64 := by decide

theorem add_golden_inverse (z : Word) : z + golden + 0x61C8864680B583EB#64 = z := by
  rw [BitVec.add_assoc, golden_inverse, BitVec.add_zero]

theorem add_golden_bijective : Function.Bijective (fun z : Word => z + golden) :=
  bijective_of_leftInverse (g := fun y => y + 0x61C8864680B583EB#64) add_golden_inverse

/-- `mix` is the composition of its five stages (R76). -/
theorem mix_bijective : Function.Bijective mix :=
  (xorShift_bijective (k := xorShiftThree) (by decide)).comp <| (mul_bijective multTwo_inverse).comp <|
    (xorShift_bijective (k := xorShiftTwo) (by decide)).comp <| (mul_bijective multOne_inverse).comp <|
      xorShift_bijective (k := xorShiftOne) (by decide)

theorem smStep_bijective : Function.Bijective smStep := mix_bijective.comp add_golden_bijective

/-- A known preimage under `smstep` is the only one. -/
theorem smStep_eq_iff {z₀ w : Word} (h : smStep z₀ = w) (z : Word) : smStep z = w ↔ z = z₀ := by
  rw [← h, smStep_bijective.injective.eq_iff]

/-- Settles O11: every stage has a left inverse, `mix` and `smstep` are compositions of stages, and a preimage is unique. -/
theorem stagesAreBijections : Obligations.StagesAreBijections :=
  ⟨add_golden_inverse,
    fun z => (xorShift_inverse z (k := 30) (by decide)).symm,
    fun z => (xorShift_inverse z (k := 27) (by decide)).symm,
    fun z => (xorShift_inverse z (k := 31) (by decide)).symm,
    multOne_inverse, multTwo_inverse,
    add_golden_bijective, xorShift_bijective (by decide),
    mul_bijective multOne_inverse, xorShift_bijective (by decide),
    mul_bijective multTwo_inverse, xorShift_bijective (by decide),
    mix_bijective, smStep_bijective,
    smStep_eq_iff (by decide), smStep_eq_iff (by decide)⟩

/-! ### The chain of expansion (R78) -/

section Expansion
variable (seed : Word)

/-- An expansion goes on from the word its first part ends in: shorter expansions and chaining in one equation. -/
theorem expand_add (m n : Nat) : expand seed (m + n) = expand seed m ++ expand (smStep^[m] seed) n := by
  induction m generalizing seed with
  | zero => rw [Nat.zero_add]; rfl
  | succ m ih => rw [Nat.succ_add, expand, ih, expand, List.cons_append, Function.iterate_succ_apply]

/-- Word `k` of an expansion is the first word of what follows the `k` before it. -/
theorem expand_getElem? {k n : Nat} (hk : k < n) : (expand seed n)[k]? = some (smStep^[k + 1] seed) := by
  obtain ⟨j, rfl⟩ : ∃ j, n = k + (j + 1) := ⟨n - k - 1, by omega⟩
  rw [expand_add, List.getElem?_append_right (expand_length seed k).le, expand_length, Nat.sub_self, expand,
    List.getElem?_cons_zero, Function.iterate_succ_apply']

theorem expand_take {m n : Nat} (hm : m ≤ n) : (expand seed n).take m = expand seed m := by
  obtain ⟨j, rfl⟩ := Nat.exists_eq_add_of_le hm
  rw [expand_add, List.take_left' (expand_length seed m)]

theorem expand_drop (m n : Nat) : (expand seed (m + n)).drop m = expand (smStep^[m] seed) n := by
  rw [expand_add, List.drop_left' (expand_length seed m)]
end Expansion

/-- Settles O12: all from the equation of an expansion in two parts. -/
theorem expansionIsTheChain : Obligations.ExpansionIsTheChain := fun seed n =>
  ⟨expand_length seed n, fun _ => expand_getElem? seed, fun _ hm => (expand_take seed hm).symm,
    fun k m => (expand_drop seed (k + 1) m).symm⟩

/-! ### The commands (R79, R80, R84) -/

@[simp] theorem smuBeat_unit (n : Nat) (z : Word) : (smuBeat n z).unit = .smu := rfl

@[simp] theorem smuBeat_head? (n : Nat) (z : Word) : (smuBeat n z).fields.head? = some z := rfl

/-- `SM.NEXT` on a written `Z` reads its word and draws nothing (R80). -/
theorem exec_smNext_written {s : State} (h : s.z.written = true) :
    exec .smNext s = .next { s with
      z := Reg.load (smStep s.z.value)
      rq := s.rq ++ [smuBeat s.laneCount (smStep s.z.value)] } := by
  rw [exec_smNext, read_written s.z s.draws h, h, drawsAfter_written, Reg.load]

/-- Settles O13: the decoder's row and the command's equation. -/
theorem seedLoadsAccumulator : Obligations.SeedLoadsAccumulator := fun v s lanes =>
  ⟨decode_smSeed lanes v, exec_smSeed v s⟩

/-- Settles O14: the equation of the command, its beat written out. -/
theorem nextStepsAccumulatorAndEmits : Obligations.NextStepsAccumulatorAndEmits := fun _ => exec_smNext_written

/-- Settles O17: the new `Z` and the beat's tag and field 0 hold nothing but the old `Z`. -/
theorem nextDependsOnAccumulatorOnly : Obligations.NextDependsOnAccumulatorOnly := by
  intro s s' hz hw
  refine ⟨_, _, _, _, exec_smNext_written hw, exec_smNext_written (hz ▸ hw), ?_, rfl, rfl, ?_, ?_⟩
  · rw [hz]
  · rw [smuBeat_unit, smuBeat_unit]
  · rw [smuBeat_head?, smuBeat_head?, hz]

/-! ### The commands realise the expansion (R81) -/

/-- The beats of the SMU among a list of beats: those with unit tag 0 (R27). -/
def smuBeats (bs : List Beat) : List Beat := bs.filter (fun b => b.unit == .smu)

theorem smuBeats_append (bs bs' : List Beat) : smuBeats (bs ++ bs') = smuBeats bs ++ smuBeats bs' :=
  List.filter_append ..

theorem smuBeats_smuBeat (n : Nat) (z : Word) : smuBeats [smuBeat n z] = [smuBeat n z] := rfl

/-- An XRU command that advances the lanes, or loads one that is present, on a block with `lanes` lanes. -/
def AdvancesOrLoads (lanes : Nat) (i : Instr) : Prop :=
  i = .xoAdv ∨ ∃ sel lane v, i = .xoLoad sel lane v ∧ lane.val < lanes

/-- `XO.ADV` and `XO.LOAD` complete, and leave `Z`, `LANES` and the SMU's beats alone (R23). -/
theorem exec_advancesOrLoads {s : State} {i : Instr} (hi : AdvancesOrLoads s.laneCount i) :
    i ≠ .smNext ∧ ∃ t, exec i s = .next t ∧ t.z = s.z ∧ t.laneCount = s.laneCount ∧ smuBeats (commandBeats s i) = [] := by
  obtain rfl | ⟨sel, lane, v, rfl, hl⟩ := hi
  · exact ⟨nofun, _, exec_xoAdv s, rfl, lanesAdvanced_length s, rfl⟩
  · exact ⟨nofun, _, exec_xoLoad_present hl sel v, writeStateWord_z .., writeStateWord_laneCount .., rfl⟩

/-- From a written `Z`, by induction on the sequence: each `SM.NEXT` takes one step of the chain and emits its word, the other
commands leave the chain alone. -/
theorem execAll_realises_expand (cs : List Instr) {s : State} {z : Word} (hz : s.z = Reg.load z)
    (hcs : ∀ i ∈ cs, i = .smNext ∨ AdvancesOrLoads s.laneCount i) :
    ∃ t beats, execAll cs s = .next t ∧ t.rq = s.rq ++ beats ∧
      smuBeats beats = (expand z (cs.count .smNext)).map (smuBeat s.laneCount) ∧
      t.z = Reg.load (smStep^[cs.count .smNext] z) := by
  induction cs generalizing s z with
  | nil => exact ⟨s, [], rfl, (List.append_nil _).symm, rfl, hz⟩
  | cons i cs ih =>
    obtain ⟨rfl | hi, hcs'⟩ := List.forall_mem_cons.1 hcs
    · have hexec := exec_smNext_written (s := s) (hz ▸ rfl)
      rw [hz, load_value] at hexec
      obtain ⟨t, beats, hall, hrq, hbeats, htz⟩ := ih (s := { s with
        z := Reg.load (smStep z)
        rq := s.rq ++ [smuBeat s.laneCount (smStep z)] }) rfl hcs'
      refine ⟨t, smuBeat s.laneCount (smStep z) :: beats, (execAll_cons_next hexec cs).trans hall, ?_, ?_, ?_⟩
      · rw [hrq, List.append_assoc, List.singleton_append]
      · rw [List.count_cons_self, expand, List.map_cons, ← hbeats, ← List.singleton_append, smuBeats_append,
          smuBeats_smuBeat, List.singleton_append]
      · rw [List.count_cons_self, Function.iterate_succ_apply, htz]
    · obtain ⟨hne, u, hexec, huz, hul, hsilent⟩ := exec_advancesOrLoads hi
      obtain ⟨t, beats, hall, hrq, hbeats, htz⟩ := ih (huz.trans hz) (hul.symm ▸ hcs')
      refine ⟨t, commandBeats s i ++ beats, (execAll_cons_next hexec cs).trans hall, ?_, ?_, ?_⟩
      · rw [hrq, exec_rq hexec, List.append_assoc]
      · rw [smuBeats_append, hsilent, List.nil_append, hbeats, hul, List.count_cons_of_ne hne]
      · rw [htz, List.count_cons_of_ne hne]

/-- Settles O16: `SM.SEED` leaves the seed in a written `Z`, and the sequence goes on from there. -/
theorem commandsRealiseExpansion : Obligations.CommandsRealiseExpansion := by
  intro seed cs s hcs
  rw [execAll_cons_next (exec_smSeed seed s)]
  exact execAll_realises_expand cs rfl hcs

end Sys2Proof.Machine
end

section
/-!
PROOFS. The xoroshiro128+ rotator unit (41_xoroshiro128plus.md): the rotation, the structure of `xo_next` with its inverse and its
one fixed point, the commands `XO.LOAD` and `XO.ADV`, and their independence of the other lanes and of the SMU.
-/
namespace Sys2Proof.Machine

/-! ### The rotation (R91) -/

section Rotation
variable (x y : Word)

/-- A bit of a rotation comes from the right shift below `n` and from the left shift above, for every amount: the two operands of
the `|` share no bit. -/
theorem rotl_getLsbD (n : Nat) {j : Nat} (hj : j < 64) :
    (rotl x n).getLsbD j = if j < n then x.getLsbD (64 - n + j) else x.getLsbD (j - n) := by
  rw [rotl, BitVec.getLsbD_or, BitVec.getLsbD_shiftLeft, BitVec.getLsbD_ushiftRight]
  split
  case isTrue h => simp only [h, decide_true, Bool.not_true, Bool.and_false, Bool.false_and, Bool.false_or]
  case isFalse h =>
    rw [BitVec.getLsbD_of_ge x (64 - n + j) (by omega), Bool.or_false]
    simp only [hj, h, decide_true, decide_false, Bool.not_false, Bool.true_and]

/-- The bit-index form of R91; an amount of 0 fits it too. -/
theorem rotl_getLsbD_mod {n j : Nat} (hn : n < 64) (hj : j < 64) :
    (rotl x n).getLsbD j = x.getLsbD ((j + 64 - n) % 64) := by
  rw [rotl_getLsbD x n hj]
  split <;> congr 1 <;> omega

theorem rotl_zero : rotl x 0 = x := by
  refine BitVec.eq_of_getLsbD_eq fun j hj => ?_
  rw [rotl_getLsbD x 0 hj, if_neg (Nat.not_lt_zero j), Nat.sub_zero]

/-- Rotations compose by adding the amounts modulo 64. -/
theorem rotl_rotl {a b : Nat} (ha : a < 64) (hb : b < 64) : rotl (rotl x a) b = rotl x ((a + b) % 64) := by
  refine BitVec.eq_of_getLsbD_eq fun j hj => ?_
  rw [rotl_getLsbD_mod _ hb hj, rotl_getLsbD_mod x ha (Nat.mod_lt _ (by decide)),
    rotl_getLsbD_mod x (Nat.mod_lt _ (by decide)) hj]
  congr 1
  omega

/-- A rotation is undone by the rotation through the rest of the word. -/
theorem rotl_inverse {a b : Nat} (ha : a < 64) (hb : b < 64) (hab : a + b = 64) : rotl (rotl x a) b = x := by
  rw [rotl_rotl x ha hb, hab, Nat.mod_self, rotl_zero]

theorem rotl_xor (n : Nat) : rotl (x ^^^ y) n = rotl x n ^^^ rotl y n := by
  refine BitVec.eq_of_getLsbD_eq fun j hj => ?_
  simp only [BitVec.getLsbD_xor, rotl_getLsbD _ n hj]
  split <;> rfl
end Rotation

/-- Settles O18: each law from the bits of a rotation; with an amount of 0 allowed, composition gives the round trips. -/
theorem rotationLaws : Obligations.RotationLaws := by
  refine ⟨fun x n j _ hn hj => ?_, fun x a b _ ha _ hb _ => ?_, fun x a hpos ha => ?_, fun x => ?_, rotl_xor⟩
  · exact rotl_getLsbD_mod x (by omega) hj
  · exact rotl_rotl x (by omega) (by omega)
  · exact rotl_inverse x (by omega) (by omega) (by omega)
  · exact rotl_inverse x (by decide) (by decide) (by decide)

/-! ### The structure of `xo_next` (R92, R98) -/

/-- Settles O19: the amounts written out are those of the model. -/
theorem advanceUsesUpdatedWord : Obligations.AdvanceUsesUpdatedWord := fun _ _ => ⟨rfl, rfl⟩

/-- The inverse the document states for `xo_next` (R98 b); `xoPrev_xoNext` and `xoNext_xoPrev` tie it to the model. -/
def xoPrev (n0 n1 : Word) : Word × Word :=
  let t := rotl n1 28
  let r0 := rotl (n0 ^^^ t ^^^ (t <<< 14)) 9
  (r0, t ^^^ r0)

section Xor
variable (x a b : Word)

theorem xor_xor_xor_comm (y : Word) : (x ^^^ y) ^^^ (a ^^^ b) = (x ^^^ a) ^^^ (y ^^^ b) := by ac_rfl

theorem xor_cancel_twice : x ^^^ a ^^^ b ^^^ a ^^^ b = x := by
  calc x ^^^ a ^^^ b ^^^ a ^^^ b
      _ = x ^^^ (a ^^^ a) ^^^ (b ^^^ b) := by ac_rfl
      _ = x := by rw [BitVec.xor_self, BitVec.xor_self, BitVec.xor_zero, BitVec.xor_zero]

/-- The one word of a pair from the other and their xor. -/
theorem xor_xor_self : (x ^^^ a) ^^^ a = x := by
  rw [BitVec.xor_assoc, BitVec.xor_self, BitVec.xor_zero]
end Xor

theorem xoNext_fst (s0 s1 : Word) : (xoNext s0 s1).1 = rotl s0 55 ^^^ (s1 ^^^ s0) ^^^ ((s1 ^^^ s0) <<< 14) := rfl

theorem xoNext_snd (s0 s1 : Word) : (xoNext s0 s1).2 = rotl (s1 ^^^ s0) 36 := rfl

/-- `xo_next` is linear over GF(2): it is built from `^`, shifts and rotations only (R98 a). -/
theorem xoNext_xor (a0 a1 b0 b1 : Word) :
    xoNext (a0 ^^^ b0) (a1 ^^^ b1) =
      ((xoNext a0 a1).1 ^^^ (xoNext b0 b1).1, (xoNext a0 a1).2 ^^^ (xoNext b0 b1).2) := by
  refine Prod.ext (?_ : _ = (xoNext a0 a1).1 ^^^ (xoNext b0 b1).1) (?_ : _ = (xoNext a0 a1).2 ^^^ (xoNext b0 b1).2)
  · simp only [xoNext_fst, xor_xor_xor_comm a1, rotl_xor, BitVec.shiftLeft_xor_distrib]
    rw [xor_xor_xor_comm (rotl a0 55), xor_xor_xor_comm (rotl a0 55 ^^^ (a1 ^^^ a0))]
  · rw [xoNext_snd, xoNext_snd, xoNext_snd, xor_xor_xor_comm, rotl_xor]

/-- The combined word comes back from `n1`, then `s0` from `n0`, then `s1` (R98 b). -/
theorem xoPrev_xoNext (s0 s1 : Word) : xoPrev (xoNext s0 s1).1 (xoNext s0 s1).2 = (s0, s1) := by
  have ht : rotl (xoNext s0 s1).2 28 = s1 ^^^ s0 := rotl_inverse _ (by decide) (by decide) (by decide)
  have hr0 : rotl ((xoNext s0 s1).1 ^^^ (s1 ^^^ s0) ^^^ ((s1 ^^^ s0) <<< 14)) 9 = s0 := by
    rw [xoNext_fst, xor_cancel_twice]
    exact rotl_inverse s0 (by decide) (by decide) (by decide)
  rw [xoPrev, ht, hr0, xor_xor_self]

theorem xoNext_xoPrev (n0 n1 : Word) : xoNext (xoPrev n0 n1).1 (xoPrev n0 n1).2 = (n0, n1) := by
  have ht : (xoPrev n0 n1).2 ^^^ (xoPrev n0 n1).1 = rotl n1 28 := xor_xor_self ..
  have hr0 : rotl (xoPrev n0 n1).1 55 = n0 ^^^ rotl n1 28 ^^^ (rotl n1 28 <<< 14) :=
    rotl_inverse _ (by decide) (by decide) (by decide)
  refine Prod.ext ?_ ?_
  · rw [xoNext_fst, hr0, ht, xor_cancel_twice]
  · rw [xoNext_snd, ht]
    exact rotl_inverse n1 (by decide) (by decide) (by decide)

theorem xoOut_zero : xoOut 0#64 0#64 = 0#64 := by decide

theorem xoNext_zero : xoNext 0#64 0#64 = (0#64, 0#64) := by decide

/-- Only the zero state has the zero state as its successor. -/
theorem xoNext_eq_zero_iff (s0 s1 : Word) : xoNext s0 s1 = (0#64, 0#64) ↔ s0 = 0#64 ∧ s1 = 0#64 := by
  constructor
  · intro h
    have hprev : (s0, s1) = xoPrev 0#64 0#64 := by rw [← xoPrev_xoNext s0 s1, h]
    exact Prod.mk.inj (hprev.trans (by decide))
  · rintro ⟨rfl, rfl⟩
    exact xoNext_zero

/-- Settles O20: linearity from the parts of `xo_next`, and the stated inverse on both sides. -/
theorem advanceIsLinearAndInvertible : Obligations.AdvanceIsLinearAndInvertible :=
  ⟨xoNext_xor, fun s0 s1 => (xoPrev_xoNext s0 s1).symm, xoNext_xoPrev, xoNext_eq_zero_iff⟩

/-! ### The fixed points of `xo_next` (R97) -/

/-- A map of words that is linear over GF(2). -/
def XorLinear (f : Word → Word) : Prop := ∀ x y, f (x ^^^ y) = f x ^^^ f y

namespace XorLinear
variable {f g : Word → Word}

theorem xor (hf : XorLinear f) (hg : XorLinear g) : XorLinear (fun x => f x ^^^ g x) := fun x y => by
  show f (x ^^^ y) ^^^ g (x ^^^ y) = f x ^^^ g x ^^^ (f y ^^^ g y)
  rw [hf, hg]
  ac_rfl

theorem comp (hf : XorLinear f) (hg : XorLinear g) : XorLinear (f ∘ g) := fun x y => by
  rw [Function.comp_apply, hg, hf, Function.comp_apply, Function.comp_apply]

theorem iterate (hf : XorLinear f) (n : Nat) : XorLinear f^[n] := by
  induction n with
  | zero => exact fun _ _ => rfl
  | succ n ih => exact ih.comp hf

theorem map_zero (hf : XorLinear f) : f 0#64 = 0#64 := by
  have h := hf 0#64 0#64
  rwa [BitVec.xor_self, BitVec.xor_self] at h

/-- Linear maps that agree on the 64 words with one bit set agree, by induction on the number of bits a word may have set. -/
theorem eq_of_twoPow (hf : XorLinear f) (hg : XorLinear g)
    (hbit : ∀ i < 64, f (BitVec.twoPow 64 i) = g (BitVec.twoPow 64 i)) (x : Word) : f x = g x := by
  suffices hlow : ∀ n ≤ 64, ∀ x : Word, (∀ j, n ≤ j → x.getLsbD j = false) → f x = g x from
    hlow 64 le_rfl x fun j hj => BitVec.getLsbD_of_ge x j hj
  intro n hn
  induction n with
  | zero =>
    intro x hx
    have hzero : x = 0#64 := BitVec.eq_of_getLsbD_eq fun j _ => (hx j j.zero_le).trans BitVec.getLsbD_zero.symm
    rw [hzero, hf.map_zero, hg.map_zero]
  | succ n ih =>
    intro x hx
    by_cases hxn : x.getLsbD n = true
    · have hrest : f (x ^^^ BitVec.twoPow 64 n) = g (x ^^^ BitVec.twoPow 64 n) := ih (by omega) _ fun j hj => by
        rw [BitVec.getLsbD_xor, BitVec.getLsbD_twoPow]
        obtain rfl | hj := hj.eq_or_lt
        · simp [hxn, Nat.lt_of_succ_le hn]
        · simp [hx j hj, hj.ne]
      rw [← xor_xor_self x (BitVec.twoPow 64 n), hf, hg, hrest, hbit n hn]
    · refine ih (by omega) x fun j hj => ?_
      obtain rfl | hj := hj.eq_or_lt
      · exact Bool.eq_false_iff.2 hxn
      · exact hx j hj
end XorLinear

theorem id_xorLinear : XorLinear id := fun _ _ => rfl

theorem rotl_xorLinear (n : Nat) : XorLinear (rotl · n) := fun x y => rotl_xor x y n

theorem shiftLeft_xorLinear (n : Nat) : XorLinear (· <<< n) := fun x y => BitVec.shiftLeft_xor_distrib x y n

/-- What the combined word `t = s1 ^ s0` of a fixed point makes zero: the equation of `s0`, with `s1 = rotl(t, 36)` and
`s0 = t ^ s1`; `fixedPointDefect_of_fixedPoint` ties it to `xo_next`. -/
def fixedPointDefect (t : Word) : Word := rotl (t ^^^ rotl t 36) 55 ^^^ rotl t 36 ^^^ (t <<< 14)

theorem fixedPointDefect_of_fixedPoint {s0 s1 : Word} (h : xoNext s0 s1 = (s0, s1)) :
    fixedPointDefect (s1 ^^^ s0) = 0#64 := by
  have h0 : rotl s0 55 ^^^ (s1 ^^^ s0) ^^^ ((s1 ^^^ s0) <<< 14) = s0 := congrArg Prod.fst h
  have h1 : rotl (s1 ^^^ s0) 36 = s1 := congrArg Prod.snd h
  have hs0 : s1 ^^^ s0 ^^^ s1 = s0 := by rw [BitVec.xor_comm s1 s0, xor_xor_self]
  have hcomm (a b x y : Word) : a ^^^ y ^^^ b ^^^ x = a ^^^ (y ^^^ x) ^^^ b := by ac_rfl
  rw [fixedPointDefect, h1, hs0, ← BitVec.xor_left_inj s0, BitVec.zero_xor, hcomm, h0]

theorem fixedPointDefect_xorLinear : XorLinear fixedPointDefect :=
  have hs1 : XorLinear (rotl · 36) := rotl_xorLinear 36
  have hs0 : XorLinear (fun t => t ^^^ rotl t 36) := id_xorLinear.xor hs1
  (((rotl_xorLinear 55).comp hs0).xor hs1).xor (shiftLeft_xorLinear 14)

/-- A polynomial in `fixedPointDefect` over GF(2) as Horner evaluates it: each entry of `gaps` stands for one term, its degree
that much above the degree of the term before it. -/
def defectPolynomial : List Nat → Word → Word
  | [], _ => 0#64
  | gap :: gaps, t => fixedPointDefect^[gap] (t ^^^ defectPolynomial gaps t)

theorem defectPolynomial_xorLinear (gaps : List Nat) : XorLinear (defectPolynomial gaps) := by
  induction gaps with
  | nil => exact fun _ _ => BitVec.xor_self.symm
  | cons gap gaps ih => exact (fixedPointDefect_xorLinear.iterate gap).comp (id_xorLinear.xor ih)

/-- The inverse of `fixedPointDefect` as a polynomial in it, of the degrees 1, 5, 9, 11, 19, 23, 29, 35, 41, 43, 57 and 63. By the
theorem of Cayley and Hamilton there is one: the minimal polynomial of `fixedPointDefect`, found by elimination over GF(2), has
constant term 1, and this is the rest of it divided by its variable. -/
def defectInverseGaps : List Nat := [1, 4, 4, 2, 8, 4, 6, 6, 6, 2, 14, 6]

/-- The elimination is checked on the 64 words with one bit set, which by linearity is enough. -/
theorem defectInverse_fixedPointDefect (t : Word) :
    defectPolynomial defectInverseGaps (fixedPointDefect t) = t :=
  ((defectPolynomial_xorLinear _).comp fixedPointDefect_xorLinear).eq_of_twoPow id_xorLinear (by decide +kernel) t

theorem fixedPointDefect_eq_zero {t : Word} (h : fixedPointDefect t = 0#64) : t = 0#64 := by
  rw [← defectInverse_fixedPointDefect t, h, (defectPolynomial_xorLinear _).map_zero]

/-- Settles O25: a fixed point's combined word `t` is zero, hence so is `s1 = rotl(t, 36)`, and `s0 = s1`. -/
theorem zeroStateIsTheOnlyFixedPoint : Obligations.ZeroStateIsTheOnlyFixedPoint := by
  intro s0 s1
  constructor
  · intro h
    have ht : s1 = s0 := BitVec.xor_eq_zero_iff.1 (fixedPointDefect_eq_zero (fixedPointDefect_of_fixedPoint h))
    have hs1 : rotl (s1 ^^^ s0) 36 = s1 := congrArg Prod.snd h
    rw [ht, BitVec.xor_self] at hs1
    have hs0 : s0 = 0#64 := hs1.symm.trans (by decide)
    exact ⟨hs0, ht.trans hs0⟩
  · rintro ⟨rfl, rfl⟩
    exact xoNext_zero

/-! ### `XO.LOAD` (R94) -/

/-- A location that is loaded holds the word, written. -/
theorem writeStateWord_stateWord?_same {s : State} {lane : Nat} (h : lane < s.laneCount) (sel : StateWord) (v : Word) :
    (s.writeStateWord sel lane v).stateWord? sel lane = some (Reg.load v) := by
  rw [writeStateWord_stateWord?, if_pos ⟨rfl, rfl⟩, State.stateWord?, List.getElem?_eq_getElem h]
  rfl

/-- Settles O21: the word by the decoder's rule for load words, the effect by the state-word space after a write. -/
theorem loadWritesOneStateWord : Obligations.LoadWritesOneStateWord := by
  intro sel lane v s
  refine ⟨fun h => ⟨?_, _, exec_xoLoad_present h sel v, rfl, writeStateWord_laneCount .., fun sel' j => ?_⟩,
    fun h => ⟨?_, exec_xoLoad_absent (not_lt.2 h) sel v⟩⟩
  · exact (decode_loadCommandWord ..).trans (if_pos h)
  · split
    case isTrue hloc =>
      obtain ⟨rfl, rfl⟩ := hloc
      exact writeStateWord_stateWord?_same h sel' v
    case isFalse hloc => rw [writeStateWord_stateWord?, if_neg hloc]
  · exact (decode_loadCommandWord ..).trans (if_neg (not_lt.2 h))

/-! ### `XO.ADV`, lane by lane (R95 to R97) -/

/-- A lane whose two words are written. -/
def Lane.ofWords (p : Word × Word) : Lane := { s0 := Reg.load p.1, s1 := Reg.load p.2 }

theorem eq_ofWords {l : Lane} (h0 : l.s0.written = true) (h1 : l.s1.written = true) :
    l = Lane.ofWords (l.s0.value, l.s1.value) := by
  obtain ⟨⟨v0, w0⟩, ⟨v1, w1⟩⟩ := l
  cases h0
  cases h1
  rfl

/-- `XO.ADV` on a block whose lanes are all written reads definite words only, and draws nothing (R95). -/
theorem exec_xoAdv_written {s : State} (h : s.lanesWritten = true) :
    exec .xoAdv s = .next { s with
      lanes := s.lanes.map fun l =>
        { s0 := Reg.load (xoNext l.s0.value l.s1.value).1, s1 := Reg.load (xoNext l.s0.value l.s1.value).2 }
      rq := s.rq ++ [{ unit := .xru, fields := s.lanes.map fun l => xoOut l.s0.value l.s1.value }] } := by
  rw [exec_xoAdv, lanesAdvanced_of_written h, laneOutputs_of_written h, h, drawsAfter_written]

/-- Settles O22: the equation of the command on written lanes. -/
theorem advanceStepsEveryLaneAndEmits : Obligations.AdvanceStepsEveryLaneAndEmits := fun _ h =>
  exec_xoAdv_written (List.all_eq_true.2 fun l hl => (lane_written_iff l).2 (h l hl))

section Lane
variable {s : State} {i : Nat}

/-- A written lane under `XO.ADV`, whatever the other lanes hold: its field of the beat. -/
theorem laneOutputs_ofWords {a b : Word} (h : s.lanes[i]? = some (Lane.ofWords (a, b))) :
    s.laneOutputs[i]? = some (xoOut a b) := by
  rw [laneOutputs_getElem?, h, Option.map_some, output_of_written rfl]
  rfl

/-- A written lane under `XO.ADV`, whatever the other lanes hold: its new state. -/
theorem lanesAdvanced_ofWords {a b : Word} (h : s.lanes[i]? = some (Lane.ofWords (a, b))) :
    s.lanesAdvanced[i]? = some (Lane.ofWords (xoNext a b)) := by
  rw [lanesAdvanced_getElem?, h, Option.map_some, advance_of_written rfl]
  rfl

/-- A lane with an unwritten word gets the mark unwritten on both (10_state.md R29). -/
theorem advance_of_unwritten {l : Lane} (h : l.s0.written = false ∨ l.s1.written = false) (k : Nat) :
    (l.advance k).s0.written = false ∧ (l.advance k).s1.written = false := by
  have hl : l.written = false := Bool.and_eq_false_iff.2 h
  exact ⟨hl, hl⟩
end Lane

/-- Settles O23: each lane advances from its own words and mark. -/
theorem writtenLanesUnaffectedByUnwritten : Obligations.WrittenLanesUnaffectedByUnwritten := by
  intro s
  refine ⟨_, s.laneOutputs, exec_xoAdv s, rfl, laneOutputs_length s, lanesAdvanced_length s, rfl,
    fun i l hl => ⟨fun h0 h1 => ?_, fun h => ?_⟩⟩
  · rw [eq_ofWords h0 h1] at hl
    exact ⟨laneOutputs_ofWords hl, lanesAdvanced_ofWords hl⟩
  · refine ⟨l.advance (s.laneDraw i), ?_, advance_of_unwritten h _⟩
    rw [lanesAdvanced_getElem?, hl, Option.map_some]

/-- Settles O24: a written lane advances from its own words, and the zero state is a fixed point. -/
theorem degenerateLaneIsFixed : Obligations.DegenerateLaneIsFixed := by
  intro s i (h : s.lanes[i]? = some (Lane.ofWords (0#64, 0#64)))
  have hout : s.laneOutputs[i]? = some (xoOut 0#64 0#64) := laneOutputs_ofWords h
  have hnext : s.lanesAdvanced[i]? = some (Lane.ofWords (xoNext 0#64 0#64)) := lanesAdvanced_ofWords h
  rw [xoOut_zero] at hout
  rw [xoNext_zero, ← h] at hnext
  exact ⟨_, s.laneOutputs, exec_xoAdv s, rfl, hout, hnext⟩

/-! ### A lane over many advances (R96) -/

/-- By induction on the advances: lane `i` and its fields are the iterates of `xo_next` and their outputs, whatever the block. -/
theorem execAll_replicate_xoAdv (k : Nat) {s : State} {i : Nat} {p : Word × Word}
    (h : s.lanes[i]? = some (Lane.ofWords p)) :
    ∃ t beats, execAll (List.replicate k .xoAdv) s = .next t ∧ t.rq = s.rq ++ beats ∧
      beats.map (fun b => b.fields[i]?) =
        (List.iterate (Function.uncurry xoNext) p k).map (fun q => some (Function.uncurry xoOut q)) ∧
      t.lanes[i]? = some (Lane.ofWords ((Function.uncurry xoNext)^[k] p)) := by
  induction k generalizing s p with
  | zero => exact ⟨s, [], rfl, (List.append_nil _).symm, rfl, h⟩
  | succ k ih =>
    obtain ⟨a, b⟩ := p
    obtain ⟨t, beats, hall, hrq, hfields, hlane⟩ := ih (s := { s with
      lanes := s.lanesAdvanced
      rq := s.rq ++ [{ unit := .xru, fields := s.laneOutputs }]
      draws := s.drawsAfter s.lanesWritten (2 * s.laneCount) }) (lanesAdvanced_ofWords h)
    refine ⟨t, { unit := .xru, fields := s.laneOutputs } :: beats, ?_, ?_, ?_, hlane⟩
    · exact (execAll_cons_next (exec_xoAdv s) _).trans hall
    · rw [hrq, List.append_assoc, List.singleton_append]
    · rw [List.map_cons, hfields, laneOutputs_ofWords h, List.iterate, List.map_cons, Function.uncurry_apply_pair,
        Function.uncurry_apply_pair]

/-- Settles O26: the block and the one-lane block are two blocks with the same written lane. -/
theorem lanesRunIndependently : Obligations.LanesRunIndependently := by
  intro k s i l hl h0 h1
  rw [eq_ofWords h0 h1] at hl
  obtain ⟨t, beats, ht, htrq, htfields, htlane⟩ := execAll_replicate_xoAdv k hl
  obtain ⟨u, ubeats, hu, hurq, hufields, hulane⟩ :=
    execAll_replicate_xoAdv k (s := { State.resetFor 1 with lanes := [l] }) (i := 0) (congrArg some (eq_ofWords h0 h1))
  have hlength : beats.length = k := by simpa using congrArg List.length htfields
  refine ⟨t, beats, u, ubeats, ht, htrq, hu, hurq, htfields.trans hufields.symm, hlength, htlane.trans hulane.symm,
    fun j hj => ?_, htlane⟩
  have hfield := congrArg (·[j]?) htfields
  have hbeat : beats[j]? = some beats[j] := List.getElem?_eq_getElem (hlength.symm ▸ hj)
  rw [List.getElem?_map, List.getElem?_map, List.getElem?_iterate _ _ _ _ hj, hbeat] at hfield
  rw [hbeat]
  exact Option.some.inj hfield

/-! ### The two units side by side (R81, R103) -/

section Units
variable {s : State}

/-- A good command of the SMU sets `Z` and appends its beats by what it finds in `Z` and `LANES` alone. -/
theorem smu_command_effect {i : Instr} (hi : i = .smNext ∨ ∃ v, i = .smSeed v) (hgood : goodCommand s i = true) :
    ∃ z beats, ∀ u : State, u.z = s.z → u.laneCount = s.laneCount →
      exec i u = .next { u with z := z, rq := u.rq ++ beats } := by
  obtain rfl | ⟨v, rfl⟩ := hi
  · have hw : s.z.written = true := hgood
    refine ⟨Reg.load (smStep s.z.value), [smuBeat s.laneCount (smStep s.z.value)], fun u hz hl => ?_⟩
    rw [exec_smNext_written (hz.symm ▸ hw), hz, hl]
  · exact ⟨Reg.load v, [], fun u _ _ => by rw [exec_smSeed, List.append_nil]⟩

/-- A good load or advance sets the lanes, keeping `LANES`, and appends its beats by what it finds in the lanes alone. -/
theorem xru_command_effect {j : Instr} (hj : j = .xoAdv ∨ ∃ sel lane v, j = .xoLoad sel lane v)
    (hgood : goodCommand s j = true) :
    ∃ lanes beats, lanes.length = s.laneCount ∧ ∀ u : State, u.lanes = s.lanes →
      exec j u = .next { u with lanes := lanes, rq := u.rq ++ beats } := by
  obtain rfl | ⟨sel, lane, v, rfl⟩ := hj
  · have hw : s.lanesWritten = true := hgood
    refine ⟨s.lanesAdvanced, [{ unit := .xru, fields := s.laneOutputs }], lanesAdvanced_length s, fun u hu => ?_⟩
    rw [exec_xoAdv_written (s := u) (by rwa [State.lanesWritten, hu]), hu, lanesAdvanced_of_written hw,
      laneOutputs_of_written hw]
  · have hl : lane.val < s.laneCount := of_decide_eq_true (Bool.and_eq_true_iff.1 hgood).1
    refine ⟨(s.writeStateWord sel lane.val v).lanes, [], writeStateWord_laneCount .., fun u hu => ?_⟩
    rw [exec_xoLoad_present (s := u) (by rwa [State.laneCount, hu]), List.append_nil, writeStateWord_lanes, ← hu]
    rfl
end Units

/-- Settles O27: each command reads only its own unit, which the other one leaves alone. -/
theorem unitsDoNotDisturbEachOther : Obligations.UnitsDoNotDisturbEachOther := by
  intro s i j hi hj hgoodi hgoodj
  obtain ⟨z, bi, hsmu⟩ := smu_command_effect hi hgoodi
  obtain ⟨lanes, bj, hlanes, hxru⟩ := xru_command_effect hj hgoodj
  have hij := (execAll_cons_next (hsmu s rfl rfl) [j]).trans
    (execAll_cons_next (hxru { s with z := z, rq := s.rq ++ bi } rfl) [])
  have hji := (execAll_cons_next (hxru s rfl) [i]).trans
    (execAll_cons_next (hsmu { s with lanes := lanes, rq := s.rq ++ bj } rfl hlanes) [])
  exact ⟨_, _, _, _, bi, bj, hsmu s rfl rfl, rfl, hxru s rfl, rfl, hij, hji, rfl, rfl, rfl, rfl, rfl, rfl⟩

end Sys2Proof.Machine
end

section
/-!
PROOFS. Combined seeding (42_combined_seeding.md): the eight sub-seed words as iterates of `smstep`, the lanes `XO.SEED` loads with
their non-degeneracy, and the equivalence with the host-mediated sequence.
-/
namespace Sys2Proof.Machine

/-! ### The sub-seed words (R110, R111) -/

section Subseeds
variable (v : Word)

/-- The 3rd output of the first expansion, as an iterate. -/
theorem reseedWord_eq_iterate : reseedWord v = smStep^[3] v :=
  (List.getElem_eq_iff _).2 (expand_getElem? v (by decide))

/-- The eight words, the second expansion's seed as an iterate (R111). -/
theorem seed8_eq : seed8 v = expand v 4 ++ expand (smStep^[3] v) 4 := by
  rw [← reseedWord_eq_iterate]
  rfl

/-- Word `i` of the first half. -/
theorem seed8_getElem?_firstHalf {i : Nat} (hi : i < 4) : (seed8 v)[i]? = some (smStep^[i + 1] v) := by
  rw [seed8_eq, List.getElem?_append_left (by rwa [expand_length]), expand_getElem? v hi]

/-- Word `i` of the second half: the chain of the first half goes on from its third word (R111). -/
theorem seed8_getElem?_secondHalf {i : Nat} (hi : i < 4) : (seed8 v)[4 + i]? = some (smStep^[i + 4] v) := by
  rw [seed8_eq, List.getElem?_append_right (by rw [expand_length]; exact Nat.le_add_right 4 i), expand_length,
    Nat.add_sub_cancel_left, expand_getElem? _ hi, ← Function.iterate_add_apply]

/-- The eighth word, the last one the SMU produces. -/
theorem seed8_last : (seed8 v)[7]? = some (smStep^[7] v) := seed8_getElem?_secondHalf v (i := 3) (by decide)
end Subseeds

/-- Settles O28: the definition, with the reseed word found in the first expansion. -/
theorem subseedsAreTwoExpansions : Obligations.SubseedsAreTwoExpansions := fun v =>
  ⟨reseedWord v, List.getElem?_eq_getElem _, rfl, seed8_length v⟩

/-- Settles O29: the second expansion starts at `smstep` iterated three times, so its first word repeats the fourth. -/
theorem subseedsOverlapInOneChain : Obligations.SubseedsOverlapInOneChain := by
  intro v
  refine ⟨_, _, _, _, _, _, _, rfl, ?_⟩
  rw [seed8_eq]
  rfl

/-! ### The lanes and `Z` of `XO.SEED` (R112, R114, R118) -/

/-- Lane `i` gets the chain's words `i` and `i + 3` (R113, R116). -/
theorem seedLanes_seed8_getElem? (v : Word) {i : Nat} (hi : i < 4) :
    (seedLanes (seed8 v))[i]? = some (Lane.ofWords (smStep^[i + 1] v, smStep^[i + 4] v)) := by
  have hfirst : ((seed8 v).take halfSubseeds)[i]? = some (smStep^[i + 1] v) := by
    rw [List.getElem?_take_of_lt (j := halfSubseeds) hi, seed8_getElem?_firstHalf v hi]
  have hsecond : ((seed8 v).drop halfSubseeds)[i]? = some (smStep^[i + 4] v) :=
    List.getElem?_drop.trans (seed8_getElem?_secondHalf v hi)
  exact List.getElem?_zipWith_eq_some.2 ⟨_, _, hfirst, hsecond, rfl⟩

/-- A lane that is present is loaded, whatever `LANES` is (R114). -/
theorem seedLanes_take_getElem? (v : Word) {i n : Nat} (hi : i < n) (hn : n ≤ 4) :
    ((seedLanes (seed8 v)).take n)[i]? = some (Lane.ofWords (smStep^[i + 1] v, smStep^[i + 4] v)) := by
  rw [List.getElem?_take_of_lt hi, seedLanes_seed8_getElem? v (hi.trans_le hn)]

/-- `XO.SEED` with its last word as an iterate. -/
theorem exec_xoSeed_iterate (v : Word) (s : State) :
    exec (.xoSeed v) s = .next { s with
      z := Reg.load (smStep^[7] v), lanes := (seedLanes (seed8 v)).take s.laneCount } := by
  rw [exec_xoSeed, (List.getElem_eq_iff _).2 (seed8_last v)]

/-- Settles O30: the words of the two halves are the words of the lanes. -/
theorem seedLoadsWholeGenerator : Obligations.SeedLoadsWholeGenerator := by
  intro v s hs
  refine ⟨decode_xoSeed _ v, _, _, exec_xoSeed_iterate v s, seed8_last v, rfl, seedLanes_take_length v hs, fun i hi => ?_⟩
  simp only [State.stateWord?, seedLanes_take_getElem? v hi hs, seed8_getElem?_firstHalf v (hi.trans_le hs),
    seed8_getElem?_secondHalf v (hi.trans_le hs)]
  exact ⟨rfl, rfl⟩

/-- Settles O34: `Z` is written, so `SM.NEXT` steps the eighth word. -/
theorem nextAfterSeedContinuesChain : Obligations.NextAfterSeedContinuesChain := by
  intro v s
  refine ⟨_, _, seed8_last v,
    (execAll_cons_next (exec_xoSeed_iterate v s) _).trans (execAll_cons_next (exec_smNext_written rfl) []), rfl, ?_⟩
  rw [List.getLast?_concat, Option.bind_some, smuBeat_head?, load_value]

/-! ### No lane is degenerate (R116) -/

/-- The chain does not come back to zero three steps after it. -/
theorem smStep_iterate_three_zero : smStep^[3] 0#64 = 0x238275BC38FCBE91#64 := by decide

/-- A lane of combined seeding holds two words of one chain, three steps apart. -/
theorem eq_ofWords_of_mem_seedLanes {v : Word} {l : Lane} (h : l ∈ seedLanes (seed8 v)) :
    ∃ w, l = Lane.ofWords (w, smStep^[3] w) := by
  obtain ⟨i, hi⟩ := List.getElem?_of_mem h
  have hlt : i < 4 := (List.getElem?_eq_some_iff.1 hi).1.trans_eq (seedLanes_seed8_length v)
  rw [seedLanes_seed8_getElem? v hlt] at hi
  refine ⟨smStep^[i + 1] v, ?_⟩
  rw [← Function.iterate_add_apply, ← Option.some.inj hi, Nat.add_left_comm]

/-- Settles O33: with the first word zero, the second is three steps from zero, which is not zero. -/
theorem seedNeverDegenerates : Obligations.SeedNeverDegenerates := by
  intro v s
  refine ⟨_, exec_xoSeed_iterate v s, List.all_eq_true.2 fun l hl => ?_, fun l hl => ?_⟩
  · exact (lane_written_iff l).2 (seedLanes_written _ l (List.mem_of_mem_take hl))
  · obtain ⟨w, rfl⟩ := eq_ofWords_of_mem_seedLanes (List.mem_of_mem_take hl)
    rintro ⟨rfl, hzero⟩
    exact absurd (smStep_iterate_three_zero.symm.trans hzero) (by decide)

/-! ### A seeded lane does not depend on `LANES` (R114) -/

/-- The beats of a run of advances carry the XRU's tag. -/
theorem execAll_replicate_xoAdv_unit (k : Nat) {s t : State} (h : execAll (List.replicate k .xoAdv) s = .next t) :
    ∃ beats, t.rq = s.rq ++ beats ∧ ∀ b ∈ beats, b.unit = .xru := by
  induction k generalizing s with
  | zero => cases h; exact ⟨[], (List.append_nil _).symm, nofun⟩
  | succ k ih =>
    rw [List.replicate_succ, execAll_cons_next (exec_xoAdv s)] at h
    obtain ⟨beats, hrq, hunit⟩ := ih h
    exact ⟨_, hrq.trans (List.append_assoc ..), List.forall_mem_cons.2 ⟨rfl, hunit⟩⟩

/-- A written lane over `k` advances: beats of the XRU, and field `i` and the lane at the end are functions of its two words. -/
theorem execAll_replicate_xoAdv_beats (k : Nat) {s : State} {i : Nat} {p : Word × Word}
    (h : s.lanes[i]? = some (Lane.ofWords p)) :
    ∃ t beats, execAll (List.replicate k .xoAdv) s = .next t ∧ t.rq = s.rq ++ beats ∧ beats.length = k ∧
      (∀ b ∈ beats, b.unit = .xru ∧ i < b.fields.length) ∧
      beats.map (fun b => b.fields[i]?) =
        (List.iterate (Function.uncurry xoNext) p k).map (fun q => some (Function.uncurry xoOut q)) ∧
      t.lanes[i]? = some (Lane.ofWords ((Function.uncurry xoNext)^[k] p)) := by
  obtain ⟨t, beats, hall, hrq, hfields, hlane⟩ := execAll_replicate_xoAdv k h
  obtain ⟨beats', hrq', hunit⟩ := execAll_replicate_xoAdv_unit k hall
  obtain rfl : beats = beats' := List.append_cancel_left (hrq.symm.trans hrq')
  have hlength : beats.length = k := by simpa using congrArg List.length hfields
  refine ⟨t, beats, hall, hrq, hlength, fun b hb => ⟨hunit b hb, ?_⟩, hfields, hlane⟩
  have hfield := List.mem_map_of_mem (f := fun b : Beat => b.fields[i]?) hb
  rw [hfields] at hfield
  obtain ⟨q, -, hq⟩ := List.mem_map.1 hfield
  exact (List.getElem?_eq_some_iff.1 hq.symm).1

/-- `XO.SEED` seen from one lane that is present: `Z` and the lane are functions of the seed. -/
theorem exec_xoSeed_lane (v : Word) {s : State} {i : Nat} (hi : i < s.laneCount) (hs : s.laneCount ≤ 4) :
    ∃ t, exec (.xoSeed v) s = .next t ∧ t.z = Reg.load (smStep^[7] v) ∧ t.rq = s.rq ∧
      t.lanes[i]? = some (Lane.ofWords (smStep^[i + 1] v, smStep^[i + 4] v)) :=
  ⟨_, exec_xoSeed_iterate v s, rfl, rfl, seedLanes_take_getElem? v hi hs⟩

/-- Settles O31: both blocks hold the same written lane `i`, and a written lane runs by its own words. -/
theorem seededLaneSameForEveryLaneCount : Obligations.SeededLaneSameForEveryLaneCount := by
  intro v s s' i k hs hs' hi hi'
  obtain ⟨t, ht, hz, hq, hlane⟩ := exec_xoSeed_lane v hi hs
  obtain ⟨t', ht', hz', hq', hlane'⟩ := exec_xoSeed_lane v hi' hs'
  obtain ⟨u, beats, hu, hrq, hlength, hbeats, hfields, hend⟩ := execAll_replicate_xoAdv_beats k hlane
  obtain ⟨u', beats', hu', hrq', -, hbeats', hfields', hend'⟩ := execAll_replicate_xoAdv_beats k hlane'
  rw [hq] at hrq
  rw [hq'] at hrq'
  exact ⟨t, t', _, u, u', beats, beats', ht, ht', hz.trans hz'.symm, hlane, hlane', hu, hu', hrq, hrq', hlength,
    List.forall_mem_append.2 ⟨hbeats, hbeats'⟩, hfields.trans hfields'.symm, hend.trans hend'.symm⟩

/-! ### The host-mediated sequence (R115) -/

/-- From a written `Z`, `n` times `SM.NEXT` emits an expansion of `n` words and leaves its last word in `Z`. -/
theorem execAll_replicate_smNext (n : Nat) {s : State} {z : Word} (hz : s.z = Reg.load z) :
    execAll (List.replicate n .smNext) s = .next { s with
      z := Reg.load (smStep^[n] z)
      rq := s.rq ++ (expand z n).map (smuBeat s.laneCount) } := by
  induction n generalizing s z with
  | zero => rw [Function.iterate_zero, id_eq, ← hz, expand, List.map_nil, List.append_nil]; rfl
  | succ n ih =>
    rw [List.replicate_succ, execAll_cons_next (exec_smNext_written (hz ▸ rfl)), hz, load_value, ih rfl,
      List.append_assoc, Function.iterate_succ_apply]
    rfl

/-- One expansion by the host: `SM.SEED` and `n` times `SM.NEXT` (R81). -/
theorem execAll_expansion (seed : Word) (n : Nat) (s : State) :
    execAll (.smSeed seed :: List.replicate n .smNext) s = .next { s with
      z := Reg.load (smStep^[n] seed)
      rq := s.rq ++ (expand seed n).map (smuBeat s.laneCount) } := by
  rw [execAll_cons_next (exec_smSeed seed s), execAll_replicate_smNext n rfl]

/-- The two expansions of the sequence: `Z` and the eight beats are those of the sub-seed words, the lanes are untouched. -/
theorem execAll_twoExpansions (v : Word) (s : State) :
    execAll ((.smSeed v :: List.replicate 4 .smNext) ++ (.smSeed (reseedWord v) :: List.replicate 4 .smNext)) s =
      .next { s with
        z := Reg.load (smStep^[7] v)
        rq := s.rq ++ (seed8 v).map (smuBeat s.laneCount) } := by
  have hz : smStep^[4] (reseedWord v) = smStep^[7] v := by
    rw [reseedWord_eq_iterate, ← Function.iterate_add_apply]
  rw [execAll_append_next (execAll_expansion v 4 s), execAll_expansion, hz, List.append_assoc, ← List.map_append]
  rfl

/-- Loads of consecutive lanes, from the first lane of `rest` on, by induction on those lanes. -/
theorem execAll_loads_from (sel : StateWord) {ws : List Word} {rest : List Lane} (hws : ws.length = rest.length) {s : State}
    {loaded : List Lane} (hlanes : s.lanes = loaded ++ rest) (hs : s.laneCount ≤ 4) :
    execAll (List.zipWith (fun lane v => .xoLoad sel lane v) ((List.finRange 4).drop loaded.length) ws) s =
      .next { s with lanes := loaded ++ List.zipWith (fun l v => l.loadWord sel v) rest ws } := by
  induction rest generalizing ws s loaded with
  | nil =>
    obtain rfl := List.length_eq_zero_iff.1 hws
    rw [List.zipWith_nil_right, List.zipWith_nil_left, ← hlanes, execAll_nil]
  | cons l rest ih =>
    obtain ⟨w, ws, rfl⟩ := List.exists_cons_of_length_eq_add_one hws
    have hpresent : loaded.length < s.laneCount := by
      rw [State.laneCount, hlanes, List.length_append, List.length_cons]; omega
    have hwrite : (s.writeStateWord sel loaded.length w).lanes = (loaded ++ [l.loadWord sel w]) ++ rest := by
      rw [writeStateWord_lanes, hlanes, List.append_assoc]
      exact List.modifyTailIdx_add _ 0 loaded (l :: rest)
    have hrest := ih (Nat.succ.inj hws) hwrite ((writeStateWord_laneCount ..).trans_le hs)
    rw [List.drop_eq_getElem_cons (by rw [List.length_finRange]; omega), List.getElem_finRange, List.zipWith_cons_cons,
      execAll_cons_next (exec_xoLoad_present hpresent sel w), List.zipWith_cons_cons]
    rw [List.length_append, List.length_singleton, List.append_assoc] at hrest
    exact hrest

/-- Loads of one state word of every lane present. -/
theorem execAll_loadsOf (sel : StateWord) {ws : List Word} {s : State} (hws : ws.length = s.laneCount) (hs : s.laneCount ≤ 4) :
    execAll (loadsOf sel ws) s = .next { s with lanes := List.zipWith (fun l v => l.loadWord sel v) s.lanes ws } :=
  execAll_loads_from sel hws (loaded := []) rfl hs

/-- With both words of every lane loaded, nothing of the old lanes is left. -/
theorem zipWith_loadWord_loadWord {lanes : List Lane} {as : List Word} (h : as.length = lanes.length) (bs : List Word) :
    List.zipWith (fun l v => l.loadWord .s1 v) (List.zipWith (fun l v => l.loadWord .s0 v) lanes as) bs =
      List.zipWith (fun a b => { s0 := Reg.load a, s1 := Reg.load b }) as bs := by
  induction lanes generalizing as bs with
  | nil =>
    obtain rfl := List.length_eq_zero_iff.1 h
    rfl
  | cons l lanes ih =>
    obtain ⟨a, as, rfl⟩ := List.exists_cons_of_length_eq_add_one h
    cases bs with
    | nil => rfl
    | cons b bs => exact congrArg _ (ih (Nat.succ.inj h) bs)

/-- Loads of both state words of every lane present. -/
theorem execAll_loadsOf_both {as bs : List Word} {s : State} (has : as.length = s.laneCount) (hbs : bs.length = s.laneCount)
    (hs : s.laneCount ≤ 4) :
    execAll (loadsOf .s0 as ++ loadsOf .s1 bs) s =
      .next { s with lanes := List.zipWith (fun a b => { s0 := Reg.load a, s1 := Reg.load b }) as bs } := by
  have hkeep : (List.zipWith (fun l v => l.loadWord .s0 v) s.lanes as).length = s.laneCount := by
    rw [List.length_zipWith, has, min_self]
  rw [execAll_append_next (execAll_loadsOf .s0 has hs), execAll_loadsOf .s1 (hbs.trans hkeep.symm) (hkeep.trans_le hs),
    zipWith_loadWord_loadWord has]

/-- The loads of the sequence leave the lanes of `XO.SEED`. -/
theorem execAll_subseedLoads (v : Word) {s : State} (hs : s.laneCount ≤ 4) :
    execAll (loadsOf .s0 (((seed8 v).take 4).take s.laneCount) ++ loadsOf .s1 (((seed8 v).drop 4).take s.laneCount)) s =
      .next { s with lanes := (seedLanes (seed8 v)).take s.laneCount } := by
  rw [execAll_loadsOf_both (by simp [seed8_length, hs]) (by simp [seed8_length, hs]) hs, seedLanes, List.take_zipWith]
  rfl

/-- Settles O32: two expansions leave `Z` and the beats, the loads leave the lanes. -/
theorem seedEqualsHostSequence : Obligations.SeedEqualsHostSequence := by
  intro v s _ hs
  have hloads := execAll_subseedLoads v (s := { s with
    z := Reg.load (smStep^[7] v), rq := s.rq ++ (seed8 v).map (smuBeat s.laneCount) }) hs
  have hall := (execAll_append_next (execAll_twoExpansions v s)).trans hloads
  rw [← List.append_assoc] at hall
  refine ⟨_, _, _, exec_xoSeed_iterate v s, (seed8_getElem?_firstHalf v (by decide)).trans
    (congrArg some (reseedWord_eq_iterate v).symm), hall, rfl, rfl, rfl, rfl⟩

end Sys2Proof.Machine
end

section
/-!
PROOFS. Exceptions (60_exceptions.md): the free draw of a command that reads an unwritten register (R134), and `rst`, which overrides
both handshakes (R123).
-/
namespace Sys2Proof.Machine

/-- `SM.NEXT` on an unwritten `Z` steps a free value, counts the draw and leaves `Z` unwritten (R29, R134). -/
theorem exec_smNext_unwritten {s : State} (h : s.z.written = false) :
    exec .smNext s = .next { s with
      z := { value := smStep (Config.freeWord s.draws), written := false }
      rq := s.rq ++ [smuBeat s.laneCount (smStep (Config.freeWord s.draws))]
      draws := s.draws + 1 } := by
  rw [exec_smNext, read_unwritten s.z s.draws h, h, drawsAfter_unwritten]

/-- Settles O15: the equation of the command, its beat written out. -/
theorem nextOnUnwrittenDrawsFreely : Obligations.NextOnUnwrittenDrawsFreely := fun _ => exec_smNext_unwritten

/-- Settles O47: the equation of an edge with reset, the reset state written out. -/
theorem resetOverridesEverything : Obligations.ResetOverridesEverything := fun _ _ _ => step_of_reset_edge

end Sys2Proof.Machine
end

section
/-!
PROOFS. Reset and hazards (70_reset_and_hazards.md): the initialisation sequences (R143, R144), the host's duty not to load a
degenerate lane (R146), completion of legal runs (R152), and agreement of good runs on every block (R155).
-/
namespace Sys2Proof.Machine

/-! ### Initialisation (R143, R144) -/

/-- Lanes made by loading both their words are written. -/
theorem zipWith_load_written (as bs : List Word) :
    (List.zipWith (fun a b => ({ s0 := Reg.load a, s1 := Reg.load b } : Lane)) as bs).all Lane.written = true := by
  refine List.all_eq_true.2 fun l hl => ?_
  obtain ⟨n, hn⟩ := List.getElem?_of_mem hl
  obtain ⟨a, b, -, -, rfl⟩ := List.getElem?_zipWith_eq_some.1 hn
  rfl

/-- Settles O38: the seed commands write the registers outright, and the loads leave exactly the loaded words. -/
theorem initialisationMakesReadsDefined : Obligations.InitialisationMakesReadsDefined := by
  refine ⟨fun v s => ⟨_, exec_smSeed v s, rfl⟩, fun v s => ?_, fun a b s hs ha hb => ?_⟩
  · obtain ⟨t, hexec, hwritten, -⟩ := seedNeverDegenerates v s
    refine ⟨t, hexec, ?_, hwritten⟩
    rw [exec_xoSeed] at hexec
    cases hexec
    rfl
  · exact ⟨_, execAll_loadsOf_both ha hb hs, zipWith_load_written a b, rfl⟩

/-! ### The host's duty (R146) -/

section Degenerate
variable {l : Lane} {s t : State}

/-- A degenerate lane is the written zero lane. -/
theorem degenerate_iff : l.degenerate = true ↔ l = Lane.ofWords (0#64, 0#64) := by
  constructor
  · intro h
    simp only [Lane.degenerate, Bool.and_eq_true, beq_iff_eq] at h
    obtain ⟨⟨hwritten, hs0⟩, hs1⟩ := h
    obtain ⟨h0, h1⟩ := (lane_written_iff l).1 hwritten
    rw [eq_ofWords h0 h1, hs0, hs1]
  · rintro rfl
    rfl

theorem nonDegenerate_iff : s.nonDegenerate = true ↔ ∀ l ∈ s.lanes, l ≠ Lane.ofWords (0#64, 0#64) := by
  simp only [State.nonDegenerate, List.all_eq_true, Bool.not_eq_true', ← Bool.not_eq_true, degenerate_iff, ne_eq]

/-- Only a degenerate lane advances to a degenerate one: `xo_next` takes only zero to zero, and `XO.ADV` writes no lane that was
unwritten (R98). -/
theorem eq_zero_of_advance_eq_zero {k : Nat} (h : l.advance k = Lane.ofWords (0#64, 0#64)) : l = Lane.ofWords (0#64, 0#64) := by
  have hwritten : l.written = true := by rw [← advance_written l k, h]; rfl
  obtain ⟨h0, h1⟩ := (lane_written_iff l).1 hwritten
  rw [advance_of_written hwritten] at h
  obtain ⟨hfst, hsnd⟩ := Lane.mk.inj h
  have hnext : xoNext l.s0.value l.s1.value = (0#64, 0#64) := Prod.ext (Reg.mk.inj hfst).1 (Reg.mk.inj hsnd).1
  obtain ⟨hs0, hs1⟩ := (xoNext_eq_zero_iff ..).1 hnext
  rw [eq_ofWords h0 h1, hs0, hs1]

/-- `XO.ADV` makes no lane degenerate. -/
theorem lanesAdvanced_ne_zero (hs : ∀ l ∈ s.lanes, l ≠ Lane.ofWords (0#64, 0#64)) :
    ∀ l ∈ s.lanesAdvanced, l ≠ Lane.ofWords (0#64, 0#64) := by
  intro l hl hzero
  obtain ⟨i, hi⟩ := List.getElem?_of_mem hl
  rw [lanesAdvanced_getElem?, Option.map_eq_some_iff] at hi
  obtain ⟨l₀, hl₀, rfl⟩ := hi
  exact hs l₀ (List.mem_of_getElem? hl₀) (eq_zero_of_advance_eq_zero hzero)
end Degenerate

/-- Settles O39, command by command: the SMU leaves the lanes, `XO.ADV` maps only zero to zero, `XO.SEED` loads no zero lane. -/
theorem onlyLoadsCanDegenerate : Obligations.OnlyLoadsCanDegenerate := by
  intro i s t hs hi h
  rw [nonDegenerate_iff] at hs ⊢
  cases i with
  | smSeed v => cases h; exact hs
  | smNext => rw [exec_smNext] at h; cases h; exact hs
  | xoLoad sel lane v => exact absurd rfl (hi sel lane v)
  | xoAdv => rw [exec_xoAdv] at h; cases h; exact lanesAdvanced_ne_zero hs
  | xoSeed v =>
    obtain ⟨t', ht', -, hne⟩ := seedNeverDegenerates v s
    cases h.symm.trans ht'
    rintro l hl rfl
    exact hne _ hl ⟨rfl, rfl⟩

/-! ### Legal runs complete (R152) -/

section Progress
variable {s t : State}

/-- The edges of `inputs` bring only command words that are legal on a block with `lanes` lanes. -/
def LegalEdges (lanes : Nat) (inputs : List Edge) : Prop :=
  ∀ e ∈ inputs, e.rst = false → ∀ c, e.command = some c → ∃ i, decode lanes c.word c.operand = .ok i

/-- A step consumes the next edge, if there is one. -/
theorem step_inputs (h : step s = .next t) : t.inputs = s.inputs.tail := by
  obtain ⟨hin, rfl⟩ | ⟨e, rest, hin, -, rfl⟩ | ⟨e, rest, u, hin, -, rfl, hcmd⟩ := step_next h
  case inl => rw [hin, List.tail_nil]
  case inr.inl => rw [hin, List.tail_cons, applyReset_inputs]
  case inr.inr =>
    have htake := takeBeat_if_inputs { s with inputs := rest } e.resReady
    rw [hin, List.tail_cons]
    obtain ⟨-, rfl⟩ | ⟨c, i, -, -, hexec⟩ := hcmd
    · exact htake
    · exact (exec_inputs hexec).trans htake

/-- With legal words to come a step completes: nothing else stops the block. -/
theorem step_next_of_legal (hlegal : LegalEdges s.laneCount s.inputs) : ∃ t, step s = .next t := by
  cases hstep : step s with
  | next t => exact ⟨t, rfl⟩
  | fault f => cases f
  | refused r =>
    obtain ⟨e, rest, c, w, hin, hrst, hcmd, hdec, -⟩ := step_refused_iff.1 hstep
    obtain ⟨i, hi⟩ := hlegal e (hin ▸ List.mem_cons_self) hrst c hcmd
    cases hdec.symm.trans hi
end Progress

/-- Settles O51, by induction on the number of steps: each completes, keeps the invariant and `LANES`, and consumes one edge. -/
theorem legalRunsComplete : Obligations.LegalRunsComplete := by
  intro k
  induction k with
  | zero => exact fun s _ _ => ⟨s, rfl, rfl⟩
  | succ k ih =>
    intro s hs hlegal
    obtain ⟨s₁, hstep⟩ := step_next_of_legal hlegal
    have hin : s₁.inputs = s.inputs.tail := step_inputs hstep
    have hlegal₁ : LegalEdges s₁.laneCount s₁.inputs := by
      rw [laneCountNeverChanges s s₁ hs hstep, hin]
      exact fun e he => hlegal e (List.mem_of_mem_tail he)
    obtain ⟨t, hrun, hdrop⟩ := ih s₁ (step_wf hs hstep) hlegal₁
    exact ⟨t, (steps_succ_next hstep k).trans hrun, by rw [hdrop, hin, List.drop_tail]⟩

/-! ### Good runs agree on every block (R155) -/

/-- What a good run can depend on: the state with the host's timing, the words stored in unwritten registers and the count of draws
forgotten. -/
def State.visible (s : State) : State := { s.untimed.masked with draws := 0 }

section Visible
variable {i : Instr} {s s' t : State}

/-- Two blocks look alike when they agree on the written registers, the marks and the beats so far. -/
theorem visible_eq_iff : s.visible = s'.visible ↔
    s.z.masked = s'.z.masked ∧ s.lanes.map Lane.masked = s'.lanes.map Lane.masked ∧ s.observable = s'.observable := by
  constructor
  · intro h
    obtain ⟨hz, hlanes, hobs, -⟩ := State.mk.inj h
    exact ⟨hz, hlanes, hobs⟩
  · rintro ⟨hz, hlanes, hobs⟩
    simp only [State.visible, State.masked, State.untimed, hz, hlanes, hobs]

theorem visible_of_untimed_eq (h : s.untimed = s'.untimed) : s.visible = s'.visible := by
  rw [State.visible, h, State.visible]

/-- Masking again and forgetting the timing again change nothing. -/
theorem visible_of_masked_eq_untimed {u : State} (h : u.masked = t.untimed.masked) : u.visible = t.visible := by
  have hmasked : u.untimed.masked = u.masked.untimed := rfl
  rw [State.visible, hmasked, h]
  rfl

theorem visible_laneCount (s : State) : s.visible.laneCount = s.laneCount := masked_laneCount s

theorem laneCount_of_visible_eq (h : s.visible = s'.visible) : s.laneCount = s'.laneCount := by
  rw [← visible_laneCount, h, visible_laneCount]

theorem visible_wellDefined (s : State) (i : Instr) : wellDefined s.visible i = wellDefined s i := by
  cases i with
  | smSeed v => rfl
  | smNext => exact masked_written s.z
  | xoLoad sel lane v => rfl
  | xoAdv => exact masked_lanesWritten s
  | xoSeed v => rfl

/-- A command that reads written registers only draws nothing, so the count of draws plays no part in it. -/
theorem exec_draws (hwd : wellDefined s i = true) (h : exec i s = .next t) (d : Nat) :
    exec i { s with draws := d } = .next { t with draws := d } := by
  cases i with
  | smSeed v => cases h; rfl
  | smNext =>
    rw [exec_smNext_written hwd] at h
    cases h
    exact exec_smNext_written (s := { s with draws := d }) hwd
  | xoLoad sel lane v =>
    obtain ⟨hl, rfl⟩ := exec_xoLoad_next h
    exact exec_xoLoad_present (s := { s with draws := d }) hl sel v
  | xoAdv =>
    rw [exec_xoAdv_written hwd] at h
    cases h
    exact exec_xoAdv_written (s := { s with draws := d }) hwd
  | xoSeed v => rw [exec_xoSeed] at h; cases h; rfl

/-- A well-defined command computes what is visible after it from what is visible before it. -/
theorem exec_visible (hwd : wellDefined s i = true) (h : exec i s = .next t) :
    ∃ u, exec i s.visible = .next u ∧ u.visible = t.visible := by
  obtain ⟨u, hexec, hmasked, -⟩ := unwrittenContentIsUnobservable i _ _ (exec_untimed h)
  have hwd' : wellDefined s.untimed.masked i = true := (visible_wellDefined s i).trans hwd
  have hvis : u.visible = t.visible := visible_of_masked_eq_untimed hmasked
  exact ⟨_, exec_draws hwd' hexec 0, hvis⟩

/-- Two blocks that look alike complete the same good command and look alike after it. -/
theorem exec_agrees (hvis : s.visible = s'.visible) (hlegal : i.wellFormed s'.laneCount = true) (hwd : wellDefined s' i = true)
    {t' : State} (h : exec i s' = .next t') : ∃ t, exec i s = .next t ∧ t.visible = t'.visible := by
  have hwd_s : wellDefined s i = true := by rw [← visible_wellDefined, hvis, visible_wellDefined, hwd]
  obtain ⟨t, ht⟩ := exec_wellFormed_next i s ((laneCount_of_visible_eq hvis).symm ▸ hlegal)
  obtain ⟨u, hu, hut⟩ := exec_visible hwd_s ht
  obtain ⟨u', hu', hut'⟩ := exec_visible hwd h
  rw [hvis] at hu
  cases hu.symm.trans hu'
  exact ⟨t, ht, hut.symm.trans hut'⟩

/-- A run whose edges bring a good sequence of commands for a block `s'` goes through all its edges on every block that looks like
`s'`, and ends as that sequence does on `s'`, by induction on the edges. -/
theorem steps_of_goodRun {es : List Edge} (hin : s.inputs = es) (hrst : ∀ e ∈ es, e.rst = false) (hvis : s.visible = s'.visible)
    (hgood : goodRun (es.filterMap Edge.command) s' = true) :
    ∃ t t', steps es.length s = .next t ∧ acceptAll (es.filterMap Edge.command) s' = .next t' ∧ t.visible = t'.visible := by
  induction es generalizing s s' with
  | nil => exact ⟨s, s', rfl, rfl, hvis⟩
  | cons e es ih =>
    obtain ⟨hrst_e, hrst_es⟩ := List.forall_mem_cons.1 hrst
    obtain ⟨u, hu, hu_in, hoffer⟩ := step_eq_offer_untimed hin hrst_e
    have hvis_u : u.visible = s'.visible := (visible_of_untimed_eq hu).trans hvis
    cases hcmd : e.command with
    | none =>
      rw [List.filterMap_cons_none hcmd] at hgood ⊢
      have hstep : step s = .next u := by rw [hoffer, hcmd]; rfl
      rw [List.length_cons, steps_succ_next hstep]
      exact ih hu_in hrst_es hvis_u hgood
    | some c =>
      rw [List.filterMap_cons_some hcmd] at hgood ⊢
      obtain ⟨i, s₁', hdec, hwd, hexec', hrest⟩ := goodRun_cons hgood
      obtain ⟨s₁, hexec, hvis₁⟩ := exec_agrees hvis_u (decode_wellFormed hdec) hwd hexec'
      have hstep : step s = .next s₁ := by
        rw [hoffer, hcmd]
        exact (accept_of_decode ((laneCount_of_visible_eq hvis_u).symm ▸ hdec)).trans hexec
      rw [List.length_cons, steps_succ_next hstep, acceptAll_cons_next ((accept_of_decode hdec).trans hexec')]
      exact ih ((exec_inputs hexec).trans hu_in) hrst_es hvis₁ hrest
end Visible

/-- Settles O55: both runs end as the one sequence of their commands does on the first block. -/
theorem goodRunsAgreeOnEveryBlock : Obligations.GoodRunsAgreeOnEveryBlock := by
  intro s s' es fs hes hfs hcmds hz hlanes hobs hgood
  have hvis : State.visible { s' with inputs := fs } = s.visible := (visible_eq_iff.2 ⟨hz, hlanes, hobs⟩).symm
  obtain ⟨t, v, ht, hv, htv⟩ := steps_of_goodRun (s := { s with inputs := es }) (s' := s) rfl hes rfl hgood
  rw [hcmds] at hgood hv
  obtain ⟨t', v', ht', hv', htv'⟩ := steps_of_goodRun (s := { s' with inputs := fs }) rfl hfs hvis hgood
  cases hv.symm.trans hv'
  obtain ⟨hz_t, hlanes_t, hobs_t⟩ := visible_eq_iff.1 (htv.trans htv'.symm)
  exact ⟨t, t', ht, ht', hobs_t, hz_t, hlanes_t⟩

end Sys2Proof.Machine
end
